-- ==== Sys2Proof/Word.lean ====
section
/-! DEFINITION. The two word types of the LS-8 (spec/00_scope.md R7, R9). -/

namespace Sys2Proof

/-- A byte: a register, a memory cell, an opcode or operand byte (R7, R9, R21, R40). -/
abbrev Byte := BitVec 8

/-- A value of the 9-bit program counter (R7, R24, decision D3; log 3). -/
abbrev PcWord := BitVec 9

/-- Names one of the eight general registers `R0` .. `R7` (R21). -/
abbrev Reg := Fin 8

end Sys2Proof
end

