-- ==== Sys2Proof/Syntax.lean ====
section
/-! DEFINITION. The instructions of the LS-8: the 27 rows of the decoder table (spec/30_encoding.md R66). -/

namespace Sys2Proof

/-- The mnemonics of the decoder table, in its order (R66). -/
inductive Opcode where
  | ldi | ld | st | prn | pra
  | add | sub | mul | div | mod | and | or | xor | inc | dec | not | cmp
  | jmp | jeq | jne | jgt | jlt
  | call | ret | push | pop | hlt
  deriving DecidableEq, Repr

/-- All 27 rows, in the table's order (R66). -/
def Opcode.all : List Opcode :=
  [.ldi, .ld, .st, .prn, .pra, .add, .sub, .mul, .div, .mod, .and, .or, .xor, .inc, .dec, .not, .cmp,
   .jmp, .jeq, .jne, .jgt, .jlt, .call, .ret, .push, .pop, .hlt]

/-- The four instruction formats (R62). -/
inductive Format where
  /-- one byte, no operand -/
  | z
  /-- two bytes, one register operand -/
  | r
  /-- three bytes, two register operands -/
  | rr
  /-- three bytes, a register operand and an immediate -/
  | ri
  deriving DecidableEq, Repr

/-- The decoder's six classes (R66); a class has no behaviour. -/
inductive OpClass where
  | alu | dataMove | stack | branchCall | halt | io
  deriving DecidableEq, Repr

/-- The decoder's static PC-control column (R66, R87); it has no behaviour of its own. -/
inductive PcControl where
  | no | whenTaken | always
  deriving DecidableEq, Repr

/-- An instruction with its operand bytes as fetched. `a` is the first operand byte and `b` the second, each a register
index when at most 7 (R64); `imm` is LDI's immediate (R63). A register operand byte above 7 is a legal term: the machine
takes ReservedOperand on it (R86), and `Instr.wf` names the terms without one. -/
inductive Instr where
  | ldi (a imm : Byte)
  | ld (a b : Byte)
  | st (a b : Byte)
  | prn (a : Byte)
  | pra (a : Byte)
  | add (a b : Byte)
  | sub (a b : Byte)
  | mul (a b : Byte)
  | div (a b : Byte)
  | mod (a b : Byte)
  | and (a b : Byte)
  | or (a b : Byte)
  | xor (a b : Byte)
  | inc (a : Byte)
  | dec (a : Byte)
  | not (a : Byte)
  | cmp (a b : Byte)
  | jmp (a : Byte)
  | jeq (a : Byte)
  | jne (a : Byte)
  | jgt (a : Byte)
  | jlt (a : Byte)
  | call (a : Byte)
  | ret
  | push (a : Byte)
  | pop (a : Byte)
  | hlt
  deriving DecidableEq, Repr

/-- The table row of an instruction. -/
def Instr.opcode : Instr → Opcode
  | .ldi _ _ => .ldi
  | .ld _ _ => .ld
  | .st _ _ => .st
  | .prn _ => .prn
  | .pra _ => .pra
  | .add _ _ => .add
  | .sub _ _ => .sub
  | .mul _ _ => .mul
  | .div _ _ => .div
  | .mod _ _ => .mod
  | .and _ _ => .and
  | .or _ _ => .or
  | .xor _ _ => .xor
  | .inc _ => .inc
  | .dec _ => .dec
  | .not _ => .not
  | .cmp _ _ => .cmp
  | .jmp _ => .jmp
  | .jeq _ => .jeq
  | .jne _ => .jne
  | .jgt _ => .jgt
  | .jlt _ => .jlt
  | .call _ => .call
  | .ret => .ret
  | .push _ => .push
  | .pop _ => .pop
  | .hlt => .hlt

/-- The operand bytes an instruction holds, in the order they follow the opcode byte (R60, R62). -/
def Instr.operandBytes : Instr → List Byte
  | .ldi a imm => [a, imm]
  | .ld a b | .st a b | .add a b | .sub a b | .mul a b | .div a b | .mod a b => [a, b]
  | .and a b | .or a b | .xor a b | .cmp a b => [a, b]
  | .prn a | .pra a | .inc a | .dec a | .not a => [a]
  | .jmp a | .jeq a | .jne a | .jgt a | .jlt a => [a]
  | .call a | .push a | .pop a => [a]
  | .ret | .hlt => []

/-- The operand bytes an instruction uses as register indices, in the order they are checked (R64, R86): all of them
but LDI's immediate. -/
def Instr.regOperands : Instr → List Byte
  | .ldi a _ => [a]
  | .ld a b | .st a b | .add a b | .sub a b | .mul a b | .div a b | .mod a b => [a, b]
  | .and a b | .or a b | .xor a b | .cmp a b => [a, b]
  | .prn a | .pra a | .inc a | .dec a | .not a => [a]
  | .jmp a | .jeq a | .jne a | .jgt a | .jlt a => [a]
  | .call a | .push a | .pop a => [a]
  | .ret | .hlt => []

end Sys2Proof
end

