-- ==== Sys2Proof/WellFormed.lean ====
section
/-! DEFINITION. The one check on an instruction's operands (spec/30_encoding.md R64). -/

namespace Sys2Proof

/-- A register operand byte is legal when bits 7:3 are 0, that is when it is at most 7 (R64). -/
def regByteOk (o : Byte) : Bool := decide (o.toNat ≤ 7)

/-- Every register operand byte is legal (R64, R86). LDI's immediate is never checked (R63). -/
def Instr.wf (i : Instr) : Bool := i.regOperands.all regByteOk

end Sys2Proof
end

