-- ==== Sys2Proof/Decode.lean ====
section
/-! DEFINITION. The decoder and the encoder, both read from one table of opcode bytes (spec/30_encoding.md R60 to R70). -/

namespace Sys2Proof

/-- The opcode byte of each row (R66). UNVERIFIED: the bytes are the default of the spec's parameter `OPC`
(decision D1, log 1); the source fixes only bits 7:6. -/
def opcodeByte : Opcode → Byte
  | .ldi  => 0b10011001
  | .ld   => 0b10011000
  | .st   => 0b10011010
  | .prn  => 0b01000011
  | .pra  => 0b01000010
  | .add  => 0b10101000
  | .sub  => 0b10101001
  | .mul  => 0b10101010
  | .div  => 0b10101011
  | .mod  => 0b10101100
  | .and  => 0b10110011
  | .or   => 0b10110001
  | .xor  => 0b10110010
  | .inc  => 0b01111000
  | .dec  => 0b01111001
  | .not  => 0b01110000
  | .cmp  => 0b10100000
  | .jmp  => 0b01010000
  | .jeq  => 0b01010001
  | .jne  => 0b01010010
  | .jgt  => 0b01010100
  | .jlt  => 0b01010011
  | .call => 0b01001000
  | .ret  => 0b00001001
  | .push => 0b01001101
  | .pop  => 0b01001100
  | .hlt  => 0b00000001

/-- The format column of the table (R62, R66). -/
def opcodeFormat : Opcode → Format
  | .ldi => .ri
  | .ld | .st | .add | .sub | .mul | .div | .mod | .and | .or | .xor | .cmp => .rr
  | .prn | .pra | .inc | .dec | .not | .jmp | .jeq | .jne | .jgt | .jlt | .call | .push | .pop => .r
  | .ret | .hlt => .z

/-- The class column of the table (R66): no behaviour. -/
def opcodeClass : Opcode → OpClass
  | .ldi | .ld | .st => .dataMove
  | .prn | .pra => .io
  | .add | .sub | .mul | .div | .mod | .and | .or | .xor | .inc | .dec | .not | .cmp => .alu
  | .jmp | .jeq | .jne | .jgt | .jlt | .call | .ret => .branchCall
  | .push | .pop => .stack
  | .hlt => .halt

/-- The PC-controlling column of the table (R66, 90_conflicts.md C3): no behaviour of its own. -/
def opcodePcControl : Opcode → PcControl
  | .jmp | .call | .ret => .always
  | .jeq | .jne | .jgt | .jlt => .whenTaken
  | .ldi | .ld | .st | .prn | .pra => .no
  | .add | .sub | .mul | .div | .mod | .and | .or | .xor | .inc | .dec | .not | .cmp => .no
  | .push | .pop | .hlt => .no

/-- How many operand bytes a format has (R62). -/
def formatOperands : Format → Nat
  | .z => 0
  | .r => 1
  | .rr | .ri => 2

/-- The operand count that the two high bits of an opcode byte encode: `op[7:6]` (R60, R61). -/
def operandCount (op : Byte) : Nat := (op.extractLsb' 6 2).toNat

/-- The length of the instruction an opcode byte starts: `op[7:6] + 1` (R60, R88). -/
def instrLength (op : Byte) : Nat := operandCount op + 1

/-- `Decode(op)`: the row whose opcode byte is `op`, or none for an unknown byte (R67). -/
def decodeOpcode (op : Byte) : Option Opcode := Opcode.all.find? fun row => opcodeByte row == op

/-- The instruction of a row with the two bytes after the opcode; an operand byte the format does not use is dropped
(R62, R64). -/
def assemble (row : Opcode) (opA opB : Byte) : Instr :=
  match row with
  | .ldi => .ldi opA opB
  | .ld => .ld opA opB
  | .st => .st opA opB
  | .prn => .prn opA
  | .pra => .pra opA
  | .add => .add opA opB
  | .sub => .sub opA opB
  | .mul => .mul opA opB
  | .div => .div opA opB
  | .mod => .mod opA opB
  | .and => .and opA opB
  | .or => .or opA opB
  | .xor => .xor opA opB
  | .inc => .inc opA
  | .dec => .dec opA
  | .not => .not opA
  | .cmp => .cmp opA opB
  | .jmp => .jmp opA
  | .jeq => .jeq opA
  | .jne => .jne opA
  | .jgt => .jgt opA
  | .jlt => .jlt opA
  | .call => .call opA
  | .ret => .ret
  | .push => .push opA
  | .pop => .pop opA
  | .hlt => .hlt

/-- What decoding three fetched bytes gives: an instruction, or the unknown byte by name (R67, R68). -/
inductive Decoded where
  | instr (i : Instr)
  | unknownOpcode (op : Byte)
  deriving DecidableEq, Repr

/-- Decode the latched opcode byte with its two operand latches (R82, R83). -/
def decode (ir opA opB : Byte) : Decoded :=
  match decodeOpcode ir with
  | some row => .instr (assemble row opA opB)
  | none => .unknownOpcode ir

/-- What reading one instruction off the front of a byte string gives. -/
inductive Parsed where
  | instr (i : Instr) (rest : List Byte)
  | unknownOpcode (op : Byte)
  /-- the string ends before the instruction does -/
  | truncated
  deriving DecidableEq, Repr

/-- Read one instruction off the front of a byte string, for claims about encodings (R60, R70): its length comes from
the opcode byte alone. The machine itself decodes through `decode`, after the over-fetch. -/
def decodeBytes : List Byte → Parsed
  | [] => .truncated
  | ir :: rest =>
    match decodeOpcode ir with
    | none => .unknownOpcode ir
    | some row =>
      match opcodeFormat row, rest with
      | .z, rest => .instr (assemble row 0 0) rest
      | .r, a :: rest => .instr (assemble row a 0) rest
      | .rr, a :: b :: rest => .instr (assemble row a b) rest
      | .ri, a :: b :: rest => .instr (assemble row a b) rest
      | _, _ => .truncated

/-- The bytes of an instruction, opcode byte first (R45, R62). -/
def encode (i : Instr) : List Byte := opcodeByte i.opcode :: i.operandBytes

/-- Byte `k` of a number, byte 0 the least significant. -/
def byteOfNat (w k : Nat) : Byte := BitVec.ofNat 8 (w / 256 ^ k)

/-- The three bytes an instruction word of `nbits` bits lays out in memory, opcode byte first, the bits above `nbits`
zero. -/
def wordBytes (nbits w : Nat) : Byte × Byte × Byte :=
  (byteOfNat (w % 2 ^ nbits) 0, byteOfNat (w % 2 ^ nbits) 1, byteOfNat (w % 2 ^ nbits) 2)

/-- The instruction the decoder reads from a word numbered as spec/opcode_table.json numbers its bits; none for an
unknown opcode. -/
def decodeTableWord (nbits w : Nat) : Option Instr :=
  match decode (wordBytes nbits w).1 (wordBytes nbits w).2.1 (wordBytes nbits w).2.2 with
  | .instr i => some i
  | .unknownOpcode _ => none

end Sys2Proof
end

