-- ==== Sys2Proof/Config.lean ====
section
/-! DEFINITION. What is fixed for the machine, and its one free value. -/

namespace Sys2Proof

/-- `N`, the number of byte cells of the memory (R5: this hardware takes 256, decision D5; log 8).
Every bounds check of the model is written against this name. -/
def Config.memSize : Nat := 256

/-- `SP_RESET`, the reset value of `R7` (R6). -/
def Config.spReset : Byte := 0xF4

/-- The ISA string of the spec (R1, decision D20): a label, no behaviour. -/
def Config.isaString : String := "LS-8/CA1"

/-- FREE VALUE (R111, 93_implementation_defined.md U6; log 14): the character the host shows for the event `Chr(v)`
where ASCII has none (`v` in 128 .. 255). The event itself carries the exact byte. -/
opaque Config.highGlyph : Byte → Char

end Sys2Proof
end

