-- ==== Sys2Proof/Machine/State.lean ====
section
/-! DEFINITION. The architectural state of the LS-8, its reset value, and the reasons a step can stop
(spec/10_state.md). -/

namespace Sys2Proof.Machine

/-- The flags register: three single bits, written only by CMP (R27). -/
structure Flags where
  /-- Equal -/
  e : Bool
  /-- LessThan -/
  l : Bool
  /-- GreaterThan -/
  g : Bool
  deriving DecidableEq, Repr

/-- The run state (R29). -/
inductive Run where
  | running
  | halted
  deriving DecidableEq, Repr

/-- Why the machine halted (R29, R171). -/
inductive Cause where
  | none
  | hlt
  | unknownOpcode
  | arithmeticFault
  | addressFault
  | reservedOperand
  deriving DecidableEq, Repr

/-- An output event (R30): `Num(v)` of PRN, `Chr(v)` of PRA. -/
inductive Event where
  | num (v : Byte)
  | chr (v : Byte)
  deriving DecidableEq, Repr

/-- Memory as its listed cells, addresses rising, none equal to what an unlisted address reads as (R31, R40; log 7).
Reads, writes and the canonical form are in Machine/Memory.lean. -/
abbrev Memory := List Host.Cell

/-- The reasons a step stops without a next state: NONE. Every fault of this hardware has an effect the spec describes
(`run` becomes Halted with a cause: R12, R170, R171), so the model takes it as a next state, and no step raises a `Fault`.
Safe: the type is empty, so nothing is hidden behind it (log 5). -/
inductive Fault where
  deriving DecidableEq, Repr

/-- The reasons an instruction is refused. -/
inductive Refusal where
  /-- Raised only by an arm of `exec` whose instruction has no meaning yet; no arm is left so. Safe: it stops. -/
  | notModelled (mnemonic : String)
  deriving DecidableEq, Repr

/-- The complete state of the machine: the tuple of spec/10_state.md and R33. -/
structure State where
  /-- `x[0]` .. `x[7]`; `x[7]` is the stack pointer (R21, R22) -/
  regs : Vector Byte 8
  /-- the program counter (R24) -/
  pc : PcWord
  /-- the flags register (R27) -/
  fl : Flags
  /-- the run state (R29) -/
  run : Run
  /-- the halt cause (R29, R171) -/
  cause : Cause
  /-- the integer recorded next to the cause (R171) -/
  info : Nat
  /-- the memory cells (R31) -/
  mem : Memory
  /-- the output events since reset, oldest first (R30) -/
  out : List Event
  deriving DecidableEq, Repr

/-- The machine right after reset (R34, R191): no program is loaded (log 16). -/
def State.reset : State where
  regs := #v[0, 0, 0, 0, 0, 0, 0, Config.spReset]
  pc := 0
  fl := { e := false, l := false, g := false }
  run := .running
  cause := .none
  info := 0
  mem := []
  out := []

end Sys2Proof.Machine
end

