-- ==== Sys2Proof/Machine/Memory.lean ====
section
/-! DEFINITION. The memory store behind the contract of spec/20_memory.md: one byte at an address, and the canonical form
of the list that holds it. Bounds are checked in Machine/Ops.lean. -/

namespace Sys2Proof.Machine

/-- `MEM_INIT`: what a cell that nothing has written reads as (R8, R34, decision D11). DESIGN CHOICE: 0x00 in every cell
(unsafe, log 7). -/
def memInit (_addr : Nat) : Byte := 0x00

/-- The byte in cell `a` (R40). -/
def Memory.read : Memory → Nat → Byte
  | [], a => memInit a
  | (b, w) :: m, a => if a = b then w else Memory.read m a

/-- The memory without the entry of cell `a`. -/
def Memory.clear : Memory → Nat → Memory
  | [], _ => []
  | (b, w) :: m, a => if a = b then Memory.clear m a else (b, w) :: Memory.clear m a

/-- The memory with an entry for cell `a` at its place in the rising order. -/
def Memory.insertCell : Memory → Nat → Byte → Memory
  | [], a, v => [(a, v)]
  | (b, w) :: m, a, v => if a < b then (a, v) :: (b, w) :: m else (b, w) :: Memory.insertCell m a v

/-- The memory after a write of `v` to cell `a`, which changes no other cell (R40). -/
def Memory.write (m : Memory) (a : Nat) (v : Byte) : Memory :=
  if v = memInit a then m.clear a else (m.clear a).insertCell a v

/-- The canonical form from address `lo` on: addresses rise, exist (R31), and no entry equals what an unlisted cell
reads as. -/
def Memory.wfFrom : Nat → Memory → Bool
  | _, [] => true
  | lo, (a, v) :: m => decide (lo ≤ a) && decide (a < Config.memSize) && decide (v ≠ memInit a) && Memory.wfFrom (a + 1) m

/-- The canonical form of a memory. -/
def Memory.wf (m : Memory) : Bool := Memory.wfFrom 0 m

end Sys2Proof.Machine
end

