-- ==== Sys2Proof/Machine/Ops.lean ====
section
/-! DEFINITION. The named operations over registers, memory, output and the run state that every meaning is built from:
the register file (spec/10_state.md R21, R22), the memory port (00_scope.md R11), taking a fault (R12), push and pop
(45_subroutine_stack.md R150, R151). There is no return from a fault (60_exceptions.md R182). -/

namespace Sys2Proof.Machine

/-- What a part of a step leaves: it goes on with a value, or a `raise` has ended the step (R12). Either way the state
holds everything written so far: nothing is rolled back. -/
inductive Res (α : Type) where
  | ok (v : α) (s : State)
  | raised (s : State)
  deriving DecidableEq, Repr

/-- Go on after a part of a step, unless it raised. -/
def Res.bind {α β : Type} (r : Res α) (k : α → State → Res β) : Res β :=
  match r with
  | .ok v s => k v s
  | .raised s => .raised s

/-- `mask8(v) = v mod 256`, for a negative `v` too (R9, R120). -/
def mask8 (v : Int) : Byte := BitVec.ofInt 8 v

/-- `zext_9`: a byte copied into the program counter (R13). -/
def zext9 (v : Byte) : PcWord := v.setWidth 9

/-- `x[i]` (R10, R21). -/
def State.reg (s : State) (r : Reg) : Byte := s.regs[r]

/-- `x[i] <- v` (R10, R21). No register is hardwired. -/
def State.setReg (s : State) (r : Reg) (v : Byte) : State := { s with regs := s.regs.set r v }

/-- The register that is the stack pointer (R22). -/
def spReg : Reg := 7

/-- `sp`, a second name of `x[7]` (R22). -/
def State.sp (s : State) : Byte := s.reg spReg

/-- `pc <- v` (R13). -/
def State.setPc (s : State) (v : PcWord) : State := { s with pc := v }

/-- `fl <- f`, all three bits at once (R27). -/
def State.setFl (s : State) (f : Flags) : State := { s with fl := f }

/-- The state with other memory contents. -/
def State.setMem (s : State) (m : Memory) : State := { s with mem := m }

/-- The byte in cell `a` of the state's memory (R31). -/
def State.cell (s : State) (a : Nat) : Byte := s.mem.read a

/-- `Emit(e)`: the event goes to the end of `out` (R13, R30). -/
def State.emit (s : State) (e : Event) : State := { s with out := s.out ++ [e] }

/-- Entering Halted: `run`, `cause` and `info` and nothing else (R12, R29, R180). -/
def State.halt (s : State) (c : Cause) (info : Nat) : State := { s with run := .halted, cause := c, info := info }

/-- `raise X(info)`: THE one way a fault is taken (R12, R170, R180). The step ends, what it wrote stays, the machine is
Halted with the cause; control goes nowhere. -/
def raise {α : Type} (c : Cause) (info : Nat) (s : State) : Res α := .raised (s.halt c info)

/-- `MemRead(addr, 1)`, bounds-checked and never wrapped (R11, R40, R41). -/
def memRead (addr : Nat) (s : State) : Res Byte :=
  if addr < Config.memSize then .ok (s.cell addr) s else raise .addressFault addr s

/-- `MemWrite(addr, 1, v)`; a refused write changes no cell (R11, R40, R41). -/
def memWrite (addr : Nat) (v : Byte) (s : State) : Res Unit :=
  if addr < Config.memSize then .ok () (s.setMem (s.mem.write addr v)) else raise .addressFault addr s

/-- The stack pointer a push writes at: one below the old one, modulo 256 (R150). -/
def pushAddr (s : State) : Byte := mask8 ((s.sp.toNat : Int) - 1)

/-- `push(v)`: decrement, then write at the new `sp`; a write that faults leaves `sp` decremented (R150). -/
def push (v : Byte) (s : State) : Res Unit :=
  memWrite (pushAddr s).toNat v (s.setReg spReg (pushAddr s))

/-- `pop()`: read at the old `sp`, then increment it, modulo 256 (R151). -/
def pop (s : State) : Res Byte :=
  (memRead s.sp.toNat s).bind fun v t => .ok v (t.setReg spReg (mask8 ((t.sp.toNat : Int) + 1)))

/-- The length that the latched opcode byte of a row gives: `ir[7:6] + 1` (R88). -/
def rowLength (row : Opcode) : Nat := instrLength (opcodeByte row)

/-- The automatic advance: `pc <- pc0 + ir[7:6] + 1` (R26, R88). No step reaches it with `pc0` above `N - 3`, so it does
not wrap in a step (log 3). -/
def advance (row : Opcode) (pc0 : PcWord) (s : State) : State := s.setPc (pc0 + BitVec.ofNat 9 (rowLength row))

/-- The end of a step: the advance unless the body set `pc` itself or raised (R80, R87, R88). -/
def finish (row : Opcode) (pc0 : PcWord) (r : Res Bool) : Host.Outcome State Fault Refusal :=
  match r with
  | .raised t => .next t
  | .ok taken t => .next (if taken then t else advance row pc0 t)

end Sys2Proof.Machine
end

