-- ==== Sys2Proof/Machine/Flags.lean ====
section
/-! DEFINITION. The flag triple of CMP, the conditions of the branches, and the packing of the flags as a byte
(spec/10_state.md R27, R28; 43_alu.md R132; 44_branch.md R141 to R144). No other instruction computes a flag (R120). -/

namespace Sys2Proof.Machine

/-- The flags CMP leaves: unsigned comparison of the first value with the second (R132). -/
def cmpFlags (a b : Byte) : Flags where
  e := decide (a.toNat = b.toNat)
  l := decide (a.toNat < b.toNat)
  g := decide (b.toNat < a.toNat)

/-- The flags as a byte, `0b00000LGE` (R28, decision D4; log 15): no instruction shows it. -/
def flagsByte (f : Flags) : Byte :=
  BitVec.ofNat 8 (4 * f.l.toNat + 2 * f.g.toNat + f.e.toNat)

/-- JEQ is taken when Equal is set (R141). -/
def condEq (f : Flags) : Bool := f.e

/-- JNE is taken when Equal is clear (R142, decision D10; log 9). -/
def condNe (f : Flags) : Bool := !f.e

/-- JGT is taken when GreaterThan is set (R143). -/
def condGt (f : Flags) : Bool := f.g

/-- JLT is taken when LessThan is set (R144). -/
def condLt (f : Flags) : Bool := f.l

end Sys2Proof.Machine
end

