-- ==== Sys2Proof/Machine/Operands.lean ====
section
/-! DEFINITION. The operand forms: the register-operand check and the frame of an instruction of each format
(spec/40_step_cycle.md R80, R85, R86). A frame holds the lines of the step after Decode. -/

namespace Sys2Proof.Machine

/-- An operand byte that selects no register (R64, R86, decision D6; log 2). -/
def reservedOperand (o : Byte) : Bool := decide (7 < o.toNat)

/-- The register an operand byte selects: `R(o[2:0])` (R64). -/
def regIndex (o : Byte) : Reg := (o.extractLsb' 0 3).toFin

/-- Format Z: no operand to check (R62). -/
def frameZ (row : Opcode) (body : State → Res Bool) (s : State) : Host.Outcome State Fault Refusal :=
  finish row s.pc (body s)

/-- Formats R and RI: the first operand byte is a register (R62, R86). -/
def frameR (row : Opcode) (a : Byte) (body : Reg → State → Res Bool) (s : State) : Host.Outcome State Fault Refusal :=
  finish row s.pc (if reservedOperand a then raise .reservedOperand a.toNat s else body (regIndex a) s)

/-- Format RR: both operand bytes are registers, the first checked first (R62, R86, R179). -/
def frameRR (row : Opcode) (a b : Byte) (body : Reg → Reg → State → Res Bool) (s : State) :
    Host.Outcome State Fault Refusal :=
  finish row s.pc
    (if reservedOperand a then raise .reservedOperand a.toNat s
     else if reservedOperand b then raise .reservedOperand b.toNat s
     else body (regIndex a) (regIndex b) s)

end Sys2Proof.Machine
end

