-- ==== Sys2Proof/Machine/Alu.lean ====
section
/-! DEFINITION. The ALU and its instructions (spec/43_alu.md). An operation is carried out on integers and its result is
masked to 8 bits (R120); both operands are read before the destination is written. -/

namespace Sys2Proof.Machine

/-- `(A + B) mod 256` (R121). -/
def aluAdd (a b : Byte) : Byte := mask8 ((a.toNat : Int) + b.toNat)

/-- `(A - B) mod 256` (R122, decision D18; log 12). -/
def aluSub (a b : Byte) : Byte := mask8 ((a.toNat : Int) - b.toNat)

/-- `(A * B) mod 256` (R123). -/
def aluMul (a b : Byte) : Byte := mask8 ((a.toNat : Int) * b.toNat)

/-- `A div B`, the floor; none for a zero divisor (R124, decision D18; log 12). -/
def aluDiv (a b : Byte) : Option Byte := if b.toNat = 0 then none else some (BitVec.ofNat 8 (a.toNat / b.toNat))

/-- `A mod B`; none for a zero divisor (R125). -/
def aluMod (a b : Byte) : Option Byte := if b.toNat = 0 then none else some (BitVec.ofNat 8 (a.toNat % b.toNat))

/-- Bitwise and (R126). -/
def aluAnd (a b : Byte) : Byte := a &&& b

/-- Bitwise inclusive or (R127). -/
def aluOr (a b : Byte) : Byte := a ||| b

/-- Bitwise exclusive or (R128). -/
def aluXor (a b : Byte) : Byte := a ^^^ b

/-- `(A + 1) mod 256` (R129). -/
def aluInc (a : Byte) : Byte := mask8 ((a.toNat : Int) + 1)

/-- `(A - 1) mod 256` (R130, decision D18; log 12). -/
def aluDec (a : Byte) : Byte := mask8 ((a.toNat : Int) - 1)

/-- `255 - A` (R131). -/
def aluNot (a : Byte) : Byte := mask8 (255 - (a.toNat : Int))

/-- `x[a] <- op(x[a], x[b])` (R120). -/
def aluBinary (op : Byte → Byte → Byte) (ra rb : Reg) (s : State) : Res Bool :=
  .ok false (s.setReg ra (op (s.reg ra) (s.reg rb)))

/-- `x[a] <- op(x[a], x[b])`, or `ArithmeticFault(pc0)` before anything is written (R124, R125, R174). -/
def aluDividing (op : Byte → Byte → Option Byte) (ra rb : Reg) (s : State) : Res Bool :=
  match op (s.reg ra) (s.reg rb) with
  | some v => .ok false (s.setReg ra v)
  | none => raise .arithmeticFault s.pc.toNat s

/-- `x[a] <- op(x[a])` (R120). -/
def aluUnary (op : Byte → Byte) (ra : Reg) (s : State) : Res Bool :=
  .ok false (s.setReg ra (op (s.reg ra)))

/-- ADD a,b (R121). -/
def execAdd (a b : Byte) (s : State) : Host.Outcome State Fault Refusal := frameRR .add a b (aluBinary aluAdd) s

/-- SUB a,b (R122). -/
def execSub (a b : Byte) (s : State) : Host.Outcome State Fault Refusal := frameRR .sub a b (aluBinary aluSub) s

/-- MUL a,b (R123). -/
def execMul (a b : Byte) (s : State) : Host.Outcome State Fault Refusal := frameRR .mul a b (aluBinary aluMul) s

/-- DIV a,b (R124). -/
def execDiv (a b : Byte) (s : State) : Host.Outcome State Fault Refusal := frameRR .div a b (aluDividing aluDiv) s

/-- MOD a,b (R125). -/
def execMod (a b : Byte) (s : State) : Host.Outcome State Fault Refusal := frameRR .mod a b (aluDividing aluMod) s

/-- AND a,b (R126). -/
def execAnd (a b : Byte) (s : State) : Host.Outcome State Fault Refusal := frameRR .and a b (aluBinary aluAnd) s

/-- OR a,b (R127). -/
def execOr (a b : Byte) (s : State) : Host.Outcome State Fault Refusal := frameRR .or a b (aluBinary aluOr) s

/-- XOR a,b (R128). -/
def execXor (a b : Byte) (s : State) : Host.Outcome State Fault Refusal := frameRR .xor a b (aluBinary aluXor) s

/-- INC a (R129). -/
def execInc (a : Byte) (s : State) : Host.Outcome State Fault Refusal := frameR .inc a (aluUnary aluInc) s

/-- DEC a (R130). -/
def execDec (a : Byte) (s : State) : Host.Outcome State Fault Refusal := frameR .dec a (aluUnary aluDec) s

/-- NOT a (R131). -/
def execNot (a : Byte) (s : State) : Host.Outcome State Fault Refusal := frameR .not a (aluUnary aluNot) s

/-- CMP a,b: writes the flags and no register (R132). -/
def execCmp (a b : Byte) (s : State) : Host.Outcome State Fault Refusal :=
  frameRR .cmp a b (fun ra rb s => .ok false (s.setFl (cmpFlags (s.reg ra) (s.reg rb)))) s

end Sys2Proof.Machine
end

