-- ==== Sys2Proof/Machine/Branch.lean ====
section
/-! DEFINITION. JMP, JEQ, JNE, JGT, JLT (spec/44_branch.md). The target is the byte in a register, zero-extended. -/

namespace Sys2Proof.Machine

/-- `pc <- zext_9(x[a])` with `taken`, or nothing without it (R87, R140, R141). -/
def jumpIf (cond : Flags → Bool) (ra : Reg) (s : State) : Res Bool :=
  if cond s.fl then .ok true (s.setPc (zext9 (s.reg ra))) else .ok false s

/-- JMP a (R140). -/
def execJmp (a : Byte) (s : State) : Host.Outcome State Fault Refusal := frameR .jmp a (jumpIf fun _ => true) s

/-- JEQ a (R141). -/
def execJeq (a : Byte) (s : State) : Host.Outcome State Fault Refusal := frameR .jeq a (jumpIf condEq) s

/-- JNE a (R142). -/
def execJne (a : Byte) (s : State) : Host.Outcome State Fault Refusal := frameR .jne a (jumpIf condNe) s

/-- JGT a (R143). -/
def execJgt (a : Byte) (s : State) : Host.Outcome State Fault Refusal := frameR .jgt a (jumpIf condGt) s

/-- JLT a (R144). -/
def execJlt (a : Byte) (s : State) : Host.Outcome State Fault Refusal := frameR .jlt a (jumpIf condLt) s

end Sys2Proof.Machine
end

