-- ==== Sys2Proof/Machine/DataMove.lean ====
section
/-! DEFINITION. LDI, LD, ST (spec/41_data_move.md). -/

namespace Sys2Proof.Machine

/-- LDI a,imm: `x[a] <- imm` (R100). -/
def execLdi (a imm : Byte) (s : State) : Host.Outcome State Fault Refusal :=
  frameR .ldi a (fun ra s => .ok false (s.setReg ra imm)) s

/-- LD a,b: `x[a] <- Memory[x[b]]` (R101). -/
def execLd (a b : Byte) (s : State) : Host.Outcome State Fault Refusal :=
  frameRR .ld a b (fun ra rb s => (memRead (s.reg rb).toNat s).bind fun v t => .ok false (t.setReg ra v)) s

/-- ST a,b: `Memory[x[a]] <- x[b]` (R102). -/
def execSt (a b : Byte) (s : State) : Host.Outcome State Fault Refusal :=
  frameRR .st a b (fun ra rb s => (memWrite (s.reg ra).toNat (s.reg rb) s).bind fun _ t => .ok false t) s

end Sys2Proof.Machine
end

