-- ==== Sys2Proof/Machine/Halt.lean ====
section
/-! DEFINITION. HLT (spec/46_halt.md). -/

namespace Sys2Proof.Machine

/-- HLT: Halted with cause Hlt and the instruction's address as information (R160, R171); the automatic advance still
applies (decision D9; log 11). -/
def execHlt (s : State) : Host.Outcome State Fault Refusal :=
  frameZ .hlt (fun s => .ok false (s.halt .hlt s.pc.toNat)) s

end Sys2Proof.Machine
end

