-- ==== Sys2Proof/Machine/Output.lean ====
section
/-! DEFINITION. PRN and PRA, and how an event reads as text (spec/42_io.md). -/

namespace Sys2Proof.Machine

/-- PRN a: `Emit(Num(x[a]))` (R110). -/
def execPrn (a : Byte) (s : State) : Host.Outcome State Fault Refusal :=
  frameR .prn a (fun ra s => .ok false (s.emit (.num (s.reg ra)))) s

/-- PRA a: `Emit(Chr(x[a]))` (R111). -/
def execPra (a : Byte) (s : State) : Host.Outcome State Fault Refusal :=
  frameR .pra a (fun ra s => .ok false (s.emit (.chr (s.reg ra)))) s

/-- The digit character of a number below 10. -/
def digitChar (d : Nat) : Char := Char.ofNat (48 + d)

/-- A byte in base 10: no sign, no leading zero, no padding, `0` for zero (R112, decision D17). -/
def decimalChars (v : Byte) : List Char :=
  if 100 ≤ v.toNat then [digitChar (v.toNat / 100), digitChar (v.toNat / 10 % 10), digitChar (v.toNat % 10)]
  else if 10 ≤ v.toNat then [digitChar (v.toNat / 10), digitChar (v.toNat % 10)]
  else [digitChar v.toNat]

/-- The character of `Chr(v)`: the ASCII character with code `v`; above ASCII the host's glyph is free (R111, U6;
log 14). -/
def chrGlyph (v : Byte) : Char := if v.toNat < 128 then Char.ofNat v.toNat else Config.highGlyph v

/-- An event as text; no separator and no line end belongs to it (R112, decision D12). -/
def renderEvent : Event → List Char
  | .num v => decimalChars v
  | .chr v => [chrGlyph v]

end Sys2Proof.Machine
end

