-- ==== Sys2Proof/Machine/Stack.lean ====
section
/-! DEFINITION. CALL, RET, PUSH, POP (spec/45_subroutine_stack.md). Each body runs in the order its pseudocode is written,
which decides the forms that name `R7` (decision D15; log 10). -/

namespace Sys2Proof.Machine

/-- The return address CALL pushes: `pc0 + 2`, the byte after CALL's operand byte (R152). In a step it fits a byte
(log 3). -/
def returnAddress (pc0 : PcWord) : Byte := BitVec.ofNat 8 (pc0.toNat + rowLength .call)

/-- CALL a: `push(pc0 + 2)`, then `pc <- zext_9(x[a])`, the register read after the push (R152). -/
def execCall (a : Byte) (s : State) : Host.Outcome State Fault Refusal :=
  frameR .call a (fun ra s =>
    (push (returnAddress s.pc) s).bind fun _ t => .ok true (t.setPc (zext9 (t.reg ra)))) s

/-- RET: `pc <- zext_9(pop())` (R153). -/
def execRet (s : State) : Host.Outcome State Fault Refusal :=
  frameZ .ret (fun s => (pop s).bind fun v t => .ok true (t.setPc (zext9 v))) s

/-- PUSH a: the register is read before `sp` changes (R154). -/
def execPush (a : Byte) (s : State) : Host.Outcome State Fault Refusal :=
  frameR .push a (fun ra s => (push (s.reg ra) s).bind fun _ t => .ok false t) s

/-- POP a: the register is written after `sp` was incremented (R155). -/
def execPop (a : Byte) (s : State) : Host.Outcome State Fault Refusal :=
  frameR .pop a (fun ra s => (pop s).bind fun v t => .ok false (t.setReg ra v)) s

end Sys2Proof.Machine
end

