-- ==== Sys2Proof/Machine/Fetch.lean ====
section
/-! DEFINITION. Fetch, over-fetch and decode: the lines of the step before Execute (spec/40_step_cycle.md R80 to R84). -/

namespace Sys2Proof.Machine

/-- The three bytes of the fetch, read in the order `pc`, `pc + 1`, `pc + 2`, each bounds-checked, whatever the opcode is
(R81, R82, decision D7; log 4). -/
def fetch (s : State) : Res (Byte × Byte × Byte) :=
  (memRead s.pc.toNat s).bind fun ir s =>
    (memRead (s.pc.toNat + 1) s).bind fun opA s =>
      (memRead (s.pc.toNat + 2) s).bind fun opB s => .ok (ir, opA, opB) s

/-- Decode the latches, or `raise UnknownOpcode(ir)` (R83, R84). -/
def decodeLatches (l : Byte × Byte × Byte) (s : State) : Res Instr :=
  match decode l.1 l.2.1 l.2.2 with
  | .instr i => .ok i s
  | .unknownOpcode op => raise .unknownOpcode op.toNat s

/-- Fetch and decode the instruction at `pc` (R80). -/
def fetchInstr (s : State) : Res Instr := (fetch s).bind decodeLatches

/-- What a step request does in Halted: nothing (R90, decision D14; log 6). -/
def stepHalted (s : State) : Host.Outcome State Fault Refusal := .next s

/-- The three bytes of an instruction word stored where the next fetch reads, when the fetch addresses exist. -/
def placeWord (s : State) (bytes : Byte × Byte × Byte) : State :=
  if s.pc.toNat + 2 < Config.memSize then
    s.setMem (((s.mem.write s.pc.toNat bytes.1).write (s.pc.toNat + 1) bytes.2.1).write (s.pc.toNat + 2) bytes.2.2)
  else s

end Sys2Proof.Machine
end

