-- ==== Sys2Proof/Machine/Step.lean ====
section
/-! DEFINITION. One step of the machine (spec/40_step_cycle.md R80). -/

namespace Sys2Proof.Machine

/-- One step request: in Halted nothing happens (R90); in Running exactly one instruction is fetched, decoded and
executed (R80). -/
def step (s : State) : Host.Outcome State Fault Refusal :=
  match s.run with
  | .halted => stepHalted s
  | .running =>
    match fetchInstr s with
    | .raised t => .next t
    | .ok i t => exec i t

/-- The state with an instruction word of `nbits` bits (the bits above them zero) stored in the three cells the next step
fetches from, at `pc`. Nothing else changes: in a Running state with `pc` at most `N - 3`, as after reset, the next step
runs it (log 16). -/
def State.withFetchWord (s : State) (nbits w : Nat) : State := placeWord s (wordBytes nbits w)

end Sys2Proof.Machine
end

