-- ==== Sys2Proof/Machine/Driver.lean ====
section
/-! DEFINITION. The driver of the core (spec/70_reset_and_hazards.md R197, R198), outside the core (00_scope.md R4 (c)). -/

namespace Sys2Proof.Machine

/-- At most `k` step requests, one after another, none once Halted is observed (R197). -/
def drive : Nat → State → State
  | 0, s => s
  | k + 1, s =>
    match s.run, step s with
    | .halted, _ => s
    | .running, .next t => drive k t
    | .running, .fault _ => s
    | .running, .refused _ => s

end Sys2Proof.Machine
end

