-- ==== Sys2Proof/Machine/Loader.lean ====
section
/-! DEFINITION. The program loader and the launch premise (spec/70_reset_and_hazards.md R192, R194 to R196). The loader is
outside the core (00_scope.md R4 (b)); no step calls it. It is here so that the state at the first step has a name. -/

namespace Sys2Proof.Machine

/-- Why a load fails before any step runs (R176, R195). -/
inductive LoadError where
  /-- the significant line, counted from 0 over all lines of the file, that yields no byte -/
  | invalidProgramFormat (line : Nat)
  /-- the address the memory refused: the program is longer than the memory -/
  | addressFault (addr : Nat)
  deriving DecidableEq, Repr

/-- A line counts when its first character is `0` or `1` (R194). -/
def lineSignificant : List Char → Bool
  | [] => false
  | c :: _ => c == '0' || c == '1'

/-- A binary digit. -/
def bitOfChar (c : Char) : Option Nat := if c = '0' then some 0 else if c = '1' then some 1 else none

/-- The number of the next `k` binary digits, the first one the most significant; none when a character is missing or is
no binary digit (R194, R195; log 16). -/
def parseBits : Nat → Nat → List Char → Option Nat
  | 0, acc, _ => some acc
  | _ + 1, _, [] => none
  | k + 1, acc, c :: cs =>
    match bitOfChar c with
    | some d => parseBits k (2 * acc + d) cs
    | none => none

/-- The byte of a significant line: its first 8 characters; what follows them is ignored (R194). -/
def parseLine (line : List Char) : Option Byte := (parseBits 8 0 line).map (BitVec.ofNat 8)

/-- The bytes of a program text in file order, `n` counting the lines; insignificant lines are skipped (R194). -/
def parseProgram : Nat → List (List Char) → Except LoadError (List Byte)
  | _, [] => .ok []
  | n, line :: lines =>
    if lineSignificant line then
      match parseLine line, parseProgram (n + 1) lines with
      | none, _ => .error (.invalidProgramFormat n)
      | some _, .error e => .error e
      | some v, .ok vs => .ok (v :: vs)
    else parseProgram (n + 1) lines

/-- The bytes written through the memory port to rising addresses (R43, R194, R195). -/
def loadBytes : Nat → List Byte → State → Except LoadError State
  | _, [], s => .ok s
  | a, v :: vs, s =>
    match memWrite a v s with
    | .ok _ t => loadBytes (a + 1) vs t
    | .raised _ => .error (.addressFault a)

/-- The state at the first step: reset, then the program from address 0 (R192, R196). -/
def launch (text : List (List Char)) : Except LoadError State :=
  match parseProgram 0 text with
  | .ok bytes => loadBytes 0 bytes State.reset
  | .error e => .error e

end Sys2Proof.Machine
end

