-- ==== Sys2Proof/Safety.lean ====
section
/-! DEFINITION. The terms claims are stated in: the invariant of the machine, what a step fetches, and what stays the same
between two states. -/

namespace Sys2Proof.Machine

/-- The flag values that occur: all clear, or exactly one set (R27). -/
def flagsLegal (f : Flags) : Bool :=
  decide (f.e.toNat + f.l.toNat + f.g.toNat ≤ 1)

/-- The causes that are faults: every way into Halted but HLT (R171, R177). -/
def isFault : Cause → Bool
  | .unknownOpcode | .arithmeticFault | .addressFault | .reservedOperand => true
  | .none | .hlt => false

/-- The cause codes (R171, decision D13). -/
def causeCode : Cause → Nat
  | .none => 0
  | .hlt => 1
  | .unknownOpcode => 2
  | .arithmeticFault => 3
  | .addressFault => 4
  | .reservedOperand => 5

/-- The invariant of the machine: memory in canonical form, `pc` in `[0, N]` (R24, R35), at most one flag set (R27, R35),
a cause exactly when Halted (R29), and no information without a cause (R171). -/
abbrev State.Inv (s : State) : Prop :=
  s.mem.wf = true ∧ s.pc.toNat ≤ Config.memSize ∧ flagsLegal s.fl = true ∧
    (s.run = .running ↔ s.cause = .none) ∧ (s.cause = .none → s.info = 0)

/-- The next step fetches and decodes the instruction `i`: the machine runs, the three fetch addresses exist, and the
cells there decode to it (R80 to R83). -/
abbrev fetches (s : State) (i : Instr) : Prop :=
  s.run = .running ∧ s.pc.toNat + 2 < Config.memSize ∧
    decode (s.cell s.pc.toNat) (s.cell (s.pc.toNat + 1)) (s.cell (s.pc.toNat + 2)) = .instr i

/-- Every register outside `rs` holds what it held. -/
def sameRegsBut (rs : List Reg) (s t : State) : Prop := ∀ r, r ∉ rs → t.reg r = s.reg r

/-- Every byte of memory outside the addresses `as` reads as before. -/
def sameCellsBut (as : List Nat) (s t : State) : Prop := ∀ x, x ∉ as → t.cell x = s.cell x

/-- Run state, cause and information are what they were. -/
def sameRun (s t : State) : Prop := t.run = s.run ∧ t.cause = s.cause ∧ t.info = s.info

end Sys2Proof.Machine
end

