-- ==== Sys2Proof/Certificates/Slice0/Obligations.lean ====
section
/-! DEFINITION. The statements for the provers. Each docstring names the rules of spec/ a statement formalises, and the
log entry or decision of the spec it rests on. Rule and decision numbers are those of spec/. In the statements about
instructions `a` and `b` are operand bytes; `regByteOk a = true` says that `a` is a legal register operand (at most 7),
and `regIndex a` is the register it selects. A form with a reserved operand is covered by
`Obligations.ReservedOperandHalts`. -/

open Sys2Proof Sys2Proof.Machine

/-! ## Encoding -/

/-- R60, R62 to R66: reading an instruction off its own encoding gives it back, whatever operand bytes it holds and
whatever follows. The opcode bytes are the spec's default (decision D1, log 1). -/
def Obligations.DecodeOfEncodeIsIdentity : Prop :=
  ∀ (i : Instr) (rest : List Byte), decodeBytes (encode i ++ rest) = .instr i rest

/-- R60, R67, R70: a byte string from which the decoder reads an instruction begins with exactly that instruction's
encoding; no byte is dropped or changed. -/
def Obligations.EncodeOfDecodedBytesIsIdentity : Prop :=
  ∀ (bs : List Byte) (i : Instr) (rest : List Byte), decodeBytes bs = .instr i rest → bs = encode i ++ rest

/-- R64, R67, R82: the machine's decoder, given the three over-fetched bytes of a stretch of memory that begins with an
instruction's encoding, gives that instruction; an over-fetched byte beyond the instruction has no effect. -/
def Obligations.LatchedBytesDecodeToEncodedInstruction : Prop :=
  ∀ (i : Instr) (ir opA opB : Byte) (rest tail : List Byte),
    encode i ++ rest = ir :: opA :: opB :: tail → decode ir opA opB = .instr i

/-- R60, R65, R66: each row's opcode byte holds its operand count in bits 7:6, no two rows share a byte, and the decoder
finds each row by its byte (bytes: decision D1, log 1). -/
def Obligations.OpcodeTableIsSound : Prop :=
  (∀ row : Opcode, operandCount (opcodeByte row) = formatOperands (opcodeFormat row)) ∧
  (∀ r q : Opcode, opcodeByte r = opcodeByte q → r = q) ∧
  (∀ row : Opcode, decodeOpcode (opcodeByte row) = some row)

/-- R60, R67, R68 (decisions D1, D2, log 1): 27 of the 256 byte values are rows; 0x00, 0x4A, 0x0B and every byte with
operand count 3 are unknown. -/
def Obligations.UnknownOpcodeBytesAreRefused : Prop :=
  ((List.range 256).filter fun n => (decodeOpcode (BitVec.ofNat 8 n)).isSome).length = 27 ∧
  decodeOpcode 0x00 = none ∧ decodeOpcode 0x4A = none ∧ decodeOpcode 0x0B = none ∧
  ∀ op : Byte, operandCount op = 3 → decodeOpcode op = none

/-- R62, R66: words of six families written out bit by bit from the encoding column decode to the instruction they stand
for (bytes: decision D1, log 1). -/
def Obligations.WrittenOutWordsDecode : Prop :=
  decode 0b10011001 0b00000011 0b11111111 = .instr (.ldi 3 255) ∧
  decode 0b01000011 0b00000111 0b00000000 = .instr (.prn 7) ∧
  decode 0b10101001 0b00000001 0b00000010 = .instr (.sub 1 2) ∧
  decode 0b01010011 0b00000101 0b00000000 = .instr (.jlt 5) ∧
  decode 0b01001101 0b00000110 0b00000000 = .instr (.push 6) ∧
  decode 0b00000001 0b00000000 0b00000000 = .instr .hlt

/-! ## The step -/

/-- R80, R85: in a Running machine whose three fetch addresses exist and hold bytes that decode to `i`, the step is `exec`
of `i` at that state, with nothing added around it. -/
def Obligations.StepRunsDecodedInstruction : Prop :=
  ∀ (s : State) (i : Instr), s.run = .running → s.pc.toNat + 2 < Config.memSize →
    decode (s.cell s.pc.toNat) (s.cell (s.pc.toNat + 1)) (s.cell (s.pc.toNat + 2)) = .instr i →
    step s = exec i s

/-- R48, R81, R82, R172 (decision D7, log 4): with `pc` at `N - 2` or above, whatever the memory holds, the step halts with
AddressFault and the first fetch address that does not exist, and changes nothing else. -/
def Obligations.FetchAtTopOfMemoryFaults : Prop :=
  ∀ s : State, s.run = .running → Config.memSize - 2 ≤ s.pc.toNat →
    step s = .next { s with
      run := .halted
      cause := .addressFault
      info := if s.pc.toNat ≤ Config.memSize then Config.memSize else s.pc.toNat }

/-- R84: an opcode byte that is no row halts the machine with UnknownOpcode and that byte; registers, memory, flags, output
and `pc` are exactly as before the step. -/
def Obligations.UnknownOpcodeHalts : Prop :=
  ∀ s : State, s.run = .running → s.pc.toNat + 2 < Config.memSize → decodeOpcode (s.cell s.pc.toNat) = none →
    step s = .next { s with run := .halted, cause := .unknownOpcode, info := (s.cell s.pc.toNat).toNat }

/-- R64, R86, R175, R179 (decision D6, log 2): an instruction with a register operand byte above 7 halts the machine with
ReservedOperand and the first such byte, and changes nothing else, whatever the registers and flags hold. -/
def Obligations.ReservedOperandHalts : Prop :=
  ∀ (i : Instr) (s : State) (o : Byte), i.regOperands.find? (fun x => !regByteOk x) = some o →
    exec i s = .next { s with run := .halted, cause := .reservedOperand, info := o.toNat }

/-- R90, R171, R182 (decision D14, log 6: the model's choice for a step request in Halted): once Halted, any number of
steps leaves the whole state as it is. -/
def Obligations.HaltedIsTerminal : Prop :=
  ∀ (s : State) (k : Nat), s.run = .halted → Host.Core.run Sys2Proof.core k s = .next s

/-- R89, R90, R203: from every state, reachable or not, the step answers a next state; no step ends in a fault or refusal of
the model. R203 makes the step total on Running states only and R90 gives Halted no transition: that a step request in
Halted answers a next state is the model's choice (DESIGN CHOICE, decision D14, log 6). That a fault of the hardware is a
next state is DEDUCED (decisions D8 and D13, log 5). -/
def Obligations.EveryStepAnswersNext : Prop :=
  (∀ s : State, ∃ t, step s = .next t) ∧ ∀ (i : Instr) (s : State), ∃ t, exec i s = .next t

/-- R24, R26, R27, R29, R35, R171: every step keeps the invariant of the machine: memory in canonical form, `pc` in
`[0, N]`, at most one flag set, a cause exactly when Halted, no information without a cause. -/
def Obligations.EveryStepKeepsInv : Prop :=
  ∀ s t : State, s.Inv → step s = .next t → t.Inv

/-- R34, R35: the reset state meets the invariant. -/
def Obligations.ResetMeetsInv : Prop := State.reset.Inv

/-- R6, R34, R191: every piece of state after reset. That cells read 0x00 is the spec's default for a point its source
leaves open (decision D11, log 7). -/
def Obligations.ResetValues : Prop :=
  (∀ r : Reg, r ≠ 7 → State.reset.reg r = 0) ∧ State.reset.reg 7 = 0xF4 ∧ State.reset.pc = 0 ∧
  State.reset.fl = { e := false, l := false, g := false } ∧ State.reset.run = .running ∧
  State.reset.cause = .none ∧ State.reset.info = 0 ∧ State.reset.out = [] ∧
  ∀ x : Nat, State.reset.cell x = 0x00

/-- R91, R180, R181: a step of a Running machine that ends Halted by a fault changes `run`, `cause` and `info` and nothing
else. -/
def Obligations.FaultChangesNothingElse : Prop :=
  ∀ s t : State, s.run = .running → step s = .next t → t.run = .halted → isFault t.cause = true →
    t = { s with run := .halted, cause := t.cause, info := t.info }

/-- R177: HLT is not a fault and records its own cause; HLT and the four faults are the only ways into Halted; an endless
loop is not detected (a jump to its own address leaves the state as it is, still Running). -/
def Obligations.OnlyHltAndFaultsHalt : Prop :=
  isFault .hlt = false ∧
  (∀ s : State, fetches s .hlt → ∃ t, step s = .next t ∧ t.run = .halted ∧ t.cause = .hlt) ∧
  (∀ s t : State, s.run = .running → step s = .next t → t.run = .halted →
    (fetches s .hlt ∧ t.cause = .hlt) ∨
      t.cause ∈ [Cause.unknownOpcode, .arithmeticFault, .addressFault, .reservedOperand]) ∧
  (∀ (s : State) (a : Byte), fetches s (.jmp a) → regByteOk a = true → zext9 (s.reg (regIndex a)) = s.pc →
    step s = .next s)

/-- R26, R88 (decision D3, log 3): after a step that leaves the machine Running, an instruction whose PC-control column
says no has moved `pc` up by its length as an integer, without wrapping, to at most `N`. -/
def Obligations.AdvanceNeverWraps : Prop :=
  ∀ (s t : State) (i : Instr), fetches s i → opcodePcControl i.opcode = .no → step s = .next t → t.run = .running →
    t.pc.toNat = s.pc.toNat + ((s.cell s.pc.toNat).extractLsb' 6 2).toNat + 1 ∧ t.pc.toNat ≤ Config.memSize

/-! ## The shared operations -/

/-- R12: `raise` ends the step: nothing that follows in the body runs, the advance does not run, every earlier change
stays, and `run`, `cause` and `info` are set. -/
def Obligations.RaiseEndsTheStep : Prop :=
  ∀ (c : Cause) (info : Nat) (s : State) (α : Type) (k : α → State → Res Bool) (row : Opcode) (pc0 : PcWord),
    finish row pc0 ((raise c info s : Res α).bind k) = .next { s with run := .halted, cause := c, info := info }

/-- R40: a write to a cell that exists is read back, changes no other cell and nothing else of the state; a cell that
nothing has written reads as the initial contents. -/
def Obligations.MemoryReadsBackWhatWasWritten : Prop :=
  (∀ (s : State) (a : Nat) (v : Byte), a < Config.memSize →
    ∃ t, memWrite a v s = .ok () t ∧ memRead a t = .ok v t ∧
      (∀ b, b < Config.memSize → b ≠ a → ∃ w, memRead b s = .ok w s ∧ memRead b t = .ok w t) ∧
      t = s.setMem t.mem) ∧
  (∀ (s : State) (a : Nat), a < Config.memSize → (∀ c ∈ s.mem, c.1 ≠ a) → memRead a s = .ok (memInit a) s)

/-- R41, R172: an access outside the memory halts with AddressFault and the address, and changes no cell; a read and a
write at an address held in a byte always succeed (for `N = 256`, decision D5, log 8). -/
def Obligations.OutOfBoundsAccessFaults : Prop :=
  (∀ (s : State) (a : Nat) (v : Byte), Config.memSize ≤ a →
    memRead a s = .raised { s with run := .halted, cause := .addressFault, info := a } ∧
    memWrite a v s = .raised { s with run := .halted, cause := .addressFault, info := a }) ∧
  (∀ (s : State) (v : Byte), memRead v.toNat s = .ok (s.cell v.toNat) s) ∧
  (∀ (s : State) (v w : Byte), memWrite v.toNat w s = .ok () (s.setMem (s.mem.write v.toNat w)))

/-- R21: a register reads as the byte last written to it, masked to 8 bits, whichever of the eight it is; every other
register keeps its value; before any write it reads as its reset value. -/
def Obligations.RegisterReadsBackWhatWasWritten : Prop :=
  (∀ (s : State) (r : Reg) (v : Int), ((s.setReg r (mask8 v)).reg r).toNat = (v % 256).toNat) ∧
  (∀ (s : State) (r q : Reg) (v : Int), q ≠ r → (s.setReg r (mask8 v)).reg q = s.reg q) ∧
  (∀ r : Reg, State.reset.reg r = if r = 7 then 0xF4 else 0)

/-- R150: push decrements `x[7]` modulo 256 and stores at the new value; where that address does not exist, the write
faults and `x[7]` stays decremented. -/
def Obligations.PushDecrementsThenStores : Prop :=
  ∀ (s : State) (v : Byte), ∃ n : Byte, n.toNat = ((s.reg 7).toNat + 255) % 256 ∧
    push v s =
      if n.toNat < Config.memSize then .ok () ((s.setReg 7 n).setMem (s.mem.write n.toNat v))
      else .raised { s.setReg 7 n with run := .halted, cause := .addressFault, info := n.toNat }

/-- R151: pop reads at the old `x[7]`, then increments it modulo 256; the cell keeps its value; where that address does
not exist, the read faults and `x[7]` is unchanged. -/
def Obligations.PopReadsThenIncrements : Prop :=
  ∀ s : State, ∃ n : Byte, n.toNat = ((s.reg 7).toNat + 1) % 256 ∧
    pop s =
      if (s.reg 7).toNat < Config.memSize then .ok (s.cell (s.reg 7).toNat) (s.setReg 7 n)
      else .raised { s with run := .halted, cause := .addressFault, info := (s.reg 7).toNat }

/-! ## Data moves and output -/

/-- R63, R100: LDI completes; the register holds the immediate, unchanged, and `pc` moves by 3. -/
def Obligations.LdiLoadsImmediate : Prop :=
  ∀ (s : State) (a imm : Byte), regByteOk a = true →
    ∃ t, exec (.ldi a imm) s = .next t ∧ t.reg (regIndex a) = imm ∧ t.pc = s.pc + 3

/-- R101: LD completes; the first register holds the byte at the address in the second, read before the register is
written, and `pc` moves by 3. -/
def Obligations.LdLoadsFromMemory : Prop :=
  ∀ (s : State) (a b : Byte), regByteOk a = true → regByteOk b = true →
    ∃ t, exec (.ld a b) s = .next t ∧ t.reg (regIndex a) = s.cell (s.reg (regIndex b)).toNat ∧ t.pc = s.pc + 3

/-- R102: ST completes; the cell at the address in the first register holds the second register, and `pc` moves by 3. -/
def Obligations.StStoresToMemory : Prop :=
  ∀ (s : State) (a b : Byte), regByteOk a = true → regByteOk b = true →
    ∃ t, exec (.st a b) s = .next t ∧ t.cell (s.reg (regIndex a)).toNat = s.reg (regIndex b) ∧ t.pc = s.pc + 3

/-- R53, R88: a store over any cell, its own instruction bytes among them, completes with the bytes it was fetched with,
`pc` moving by the latched length; a later fetch at that address reads the stored byte as its opcode. -/
def Obligations.StoreOverCodeIsSeenByLaterFetch : Prop :=
  ∀ (s : State) (a b : Byte), fetches s (.st a b) → regByteOk a = true → regByteOk b = true →
    ∃ t, step s = .next t ∧ t.pc.toNat = s.pc.toNat + 3 ∧
      ∀ u : State, u.mem = t.mem → u.pc = zext9 (s.reg (regIndex a)) → u.pc.toNat + 2 < Config.memSize →
        ∃ x y, fetch u = .ok (s.reg (regIndex b), x, y) u

/-- R13, R110, R111 (decision D12, log 14): PRN and PRA complete; the output gains exactly the event with the register's
byte at its end, and `pc` moves by 2. -/
def Obligations.PrnAndPraEmitOneEvent : Prop :=
  ∀ (s : State) (a : Byte), regByteOk a = true →
    (∃ t, exec (.prn a) s = .next t ∧ t.out = s.out ++ [.num (s.reg (regIndex a))] ∧ t.pc = s.pc + 2) ∧
    (∃ t, exec (.pra a) s = .next t ∧ t.out = s.out ++ [.chr (s.reg (regIndex a))] ∧ t.pc = s.pc + 2)

/-- R112 (decision D17, log 14): `Num(v)` reads as one to three decimal digits, no leading zero but for zero itself, whose
value is `v`; `Chr(v)` reads as the character with code `v` where ASCII has one. -/
def Obligations.EventsRenderAsText : Prop :=
  (∀ v : Byte, ∃ ds : List Nat, renderEvent (.num v) = ds.map (fun d => Char.ofNat (48 + d)) ∧
    (∀ d ∈ ds, d ≤ 9) ∧ 1 ≤ ds.length ∧ ds.length ≤ 3 ∧ (ds.head? = some 0 → ds = [0]) ∧
    ds.foldl (fun acc d => 10 * acc + d) 0 = v.toNat) ∧
  (∀ v : Byte, v.toNat < 128 → renderEvent (.chr v) = [Char.ofNat v.toNat])

/-! ## ALU -/

/-- R120 to R123, R133 (decision D18 for the negative difference, log 12): ADD, SUB and MUL complete with the exact result
modulo 256 in the first register, both operands read before it is written, and `pc` moves by 3. -/
def Obligations.AddSubMulWrapModulo256 : Prop :=
  ∀ (s : State) (a b : Byte), regByteOk a = true → regByteOk b = true →
    (∃ t, exec (.add a b) s = .next t ∧ t.pc = s.pc + 3 ∧
      (t.reg (regIndex a)).toNat = ((s.reg (regIndex a)).toNat + (s.reg (regIndex b)).toNat) % 256) ∧
    (∃ t, exec (.sub a b) s = .next t ∧ t.pc = s.pc + 3 ∧
      (t.reg (regIndex a)).toNat = (256 + (s.reg (regIndex a)).toNat - (s.reg (regIndex b)).toNat) % 256) ∧
    (∃ t, exec (.mul a b) s = .next t ∧ t.pc = s.pc + 3 ∧
      (t.reg (regIndex a)).toNat = ((s.reg (regIndex a)).toNat * (s.reg (regIndex b)).toNat) % 256)

/-- R124, R125, R133 (decision D18 for the floor, log 12): DIV and MOD by a nonzero divisor complete with the floor of the
quotient and with the remainder, and `pc` moves by 3. -/
def Obligations.DivAndModByNonzero : Prop :=
  ∀ (s : State) (a b : Byte), regByteOk a = true → regByteOk b = true → s.reg (regIndex b) ≠ 0 →
    (∃ t, exec (.div a b) s = .next t ∧ t.pc = s.pc + 3 ∧
      (t.reg (regIndex a)).toNat = (s.reg (regIndex a)).toNat / (s.reg (regIndex b)).toNat) ∧
    (∃ t, exec (.mod a b) s = .next t ∧ t.pc = s.pc + 3 ∧
      (t.reg (regIndex a)).toNat = (s.reg (regIndex a)).toNat % (s.reg (regIndex b)).toNat)

/-- R124, R125, R171, R174: DIV and MOD by a zero divisor halt with ArithmeticFault and the instruction's address, and
change nothing else, the dividend register and `pc` among it. -/
def Obligations.DivAndModByZeroFault : Prop :=
  ∀ (s : State) (a b : Byte), regByteOk a = true → regByteOk b = true → s.reg (regIndex b) = 0 →
    exec (.div a b) s = .next { s with run := .halted, cause := .arithmeticFault, info := s.pc.toNat } ∧
    exec (.mod a b) s = .next { s with run := .halted, cause := .arithmeticFault, info := s.pc.toNat }

/-- R126 to R128: AND, OR and XOR complete; bit by bit the first register holds the conjunction, disjunction and difference
of the two operands, and `pc` moves by 3. -/
def Obligations.AndOrXorWorkBitwise : Prop :=
  ∀ (s : State) (a b : Byte), regByteOk a = true → regByteOk b = true →
    (∃ t, exec (.and a b) s = .next t ∧ t.pc = s.pc + 3 ∧ ∀ k, k < 8 → (t.reg (regIndex a)).getLsbD k =
      ((s.reg (regIndex a)).getLsbD k && (s.reg (regIndex b)).getLsbD k)) ∧
    (∃ t, exec (.or a b) s = .next t ∧ t.pc = s.pc + 3 ∧ ∀ k, k < 8 → (t.reg (regIndex a)).getLsbD k =
      ((s.reg (regIndex a)).getLsbD k || (s.reg (regIndex b)).getLsbD k)) ∧
    (∃ t, exec (.xor a b) s = .next t ∧ t.pc = s.pc + 3 ∧ ∀ k, k < 8 → (t.reg (regIndex a)).getLsbD k =
      ((s.reg (regIndex a)).getLsbD k ^^ (s.reg (regIndex b)).getLsbD k))

/-- R129 to R131, R133 (decision D18 for DEC of 0, log 12): INC, DEC and NOT complete with `A + 1` and `A - 1` modulo 256
and with `255 - A`, which is every bit inverted, and `pc` moves by 2. -/
def Obligations.IncDecNotOfOneRegister : Prop :=
  ∀ (s : State) (a : Byte), regByteOk a = true →
    (∃ t, exec (.inc a) s = .next t ∧ t.pc = s.pc + 2 ∧
      (t.reg (regIndex a)).toNat = ((s.reg (regIndex a)).toNat + 1) % 256) ∧
    (∃ t, exec (.dec a) s = .next t ∧ t.pc = s.pc + 2 ∧
      (t.reg (regIndex a)).toNat = ((s.reg (regIndex a)).toNat + 255) % 256) ∧
    (∃ t, exec (.not a) s = .next t ∧ t.pc = s.pc + 2 ∧
      (t.reg (regIndex a)).toNat = 255 - (s.reg (regIndex a)).toNat ∧ t.reg (regIndex a) = ~~~(s.reg (regIndex a)))

/-- R27, R132: CMP completes; exactly one flag is set, by the unsigned comparison of the first value with the second,
whatever the flags were, and `pc` moves by 3. -/
def Obligations.CmpSetsExactlyOneFlag : Prop :=
  ∀ (s : State) (a b : Byte), regByteOk a = true → regByteOk b = true →
    ∃ t, exec (.cmp a b) s = .next t ∧ t.pc = s.pc + 3 ∧
      (t.fl.e = true ↔ (s.reg (regIndex a)).toNat = (s.reg (regIndex b)).toNat) ∧
      (t.fl.l = true ↔ (s.reg (regIndex a)).toNat < (s.reg (regIndex b)).toNat) ∧
      (t.fl.g = true ↔ (s.reg (regIndex b)).toNat < (s.reg (regIndex a)).toNat) ∧
      t.fl.e.toNat + t.fl.l.toNat + t.fl.g.toNat = 1

/-! ## Branches -/

/-- R13, R140: JMP completes; `pc` is the register's byte, zero-extended. -/
def Obligations.JmpGoesToRegister : Prop :=
  ∀ (s : State) (a : Byte), regByteOk a = true →
    ∃ t, exec (.jmp a) s = .next t ∧ t.pc.toNat = (s.reg (regIndex a)).toNat

/-- R87, R88, R141, R143 to R145: JEQ, JGT and JLT complete; each goes to the register's byte exactly when its flag is
set, and otherwise `pc` moves by 2. -/
def Obligations.FlagBranchesFollowTheirFlag : Prop :=
  ∀ (s : State) (a : Byte), regByteOk a = true →
    (∃ t, exec (.jeq a) s = .next t ∧ t.pc = if s.fl.e = true then (s.reg (regIndex a)).setWidth 9 else s.pc + 2) ∧
    (∃ t, exec (.jgt a) s = .next t ∧ t.pc = if s.fl.g = true then (s.reg (regIndex a)).setWidth 9 else s.pc + 2) ∧
    (∃ t, exec (.jlt a) s = .next t ∧ t.pc = if s.fl.l = true then (s.reg (regIndex a)).setWidth 9 else s.pc + 2)

/-- R142, R145. That JNE tests the Equal flag, and so is taken on all-clear flags, is the spec's own decision D10 (log 9):
JNE completes; it goes to the register's byte exactly when Equal is clear, and otherwise `pc` moves by 2. -/
def Obligations.JneFollowsClearEqual : Prop :=
  ∀ (s : State) (a : Byte), regByteOk a = true →
    ∃ t, exec (.jne a) s = .next t ∧ t.pc = if s.fl.e = true then s.pc + 2 else (s.reg (regIndex a)).setWidth 9

/-! ## Stack and subroutines -/

/-- R152 (decision D15 for CALL R7, log 10): with `pc` where a step can execute, CALL completes; the stack pointer is one
lower, the cell there holds `pc + 2`, and `pc` is the register read after the push (for R7 the new stack pointer). -/
def Obligations.CallPushesReturnAddress : Prop :=
  ∀ (s : State) (a : Byte), regByteOk a = true → s.pc.toNat + 2 < Config.memSize →
    ∃ t, exec (.call a) s = .next t ∧ t.reg 7 = s.reg 7 - 1 ∧ (t.cell (s.reg 7 - 1).toNat).toNat = s.pc.toNat + 2 ∧
      t.pc.toNat = if regIndex a = 7 then (s.reg 7 - 1).toNat else (s.reg (regIndex a)).toNat

/-- R153: RET completes; `pc` is the byte at the stack pointer, and the stack pointer is one higher. -/
def Obligations.RetPopsProgramCounter : Prop :=
  ∀ s : State, ∃ t, exec .ret s = .next t ∧ t.pc.toNat = (s.cell (s.reg 7).toNat).toNat ∧ t.reg 7 = s.reg 7 + 1

/-- R154 (decision D15 for PUSH R7, log 10): PUSH completes; the stack pointer is one lower, the cell there holds the
register as it was before (for R7 the old stack pointer), and `pc` moves by 2. -/
def Obligations.PushStoresRegister : Prop :=
  ∀ (s : State) (a : Byte), regByteOk a = true →
    ∃ t, exec (.push a) s = .next t ∧ t.reg 7 = s.reg 7 - 1 ∧ t.cell (s.reg 7 - 1).toNat = s.reg (regIndex a) ∧
      t.pc = s.pc + 2

/-- R155 (decision D15 for POP R7, log 10): POP completes; the register holds the byte at the old stack pointer, the stack
pointer is one higher unless it is that register, and `pc` moves by 2. -/
def Obligations.PopLoadsRegister : Prop :=
  ∀ (s : State) (a : Byte), regByteOk a = true →
    ∃ t, exec (.pop a) s = .next t ∧ t.reg (regIndex a) = s.cell (s.reg 7).toNat ∧
      (regIndex a ≠ 7 → t.reg 7 = s.reg 7 + 1) ∧ t.pc = s.pc + 2

/-- R22, R154, R155 and the source's property S2: a PUSH and then a POP bring the value into the second register, for
every stack pointer; unless R7 is the destination, the stack pointer is what it was. Where an operand is R7 (the old
stack pointer is pushed, the popped byte stays in it) this rests on the spec's own decision D15 (log 10). -/
def Obligations.PushThenPopRoundTrips : Prop :=
  ∀ (s : State) (a b : Byte), regByteOk a = true → regByteOk b = true →
    ∃ t u, exec (.push a) s = .next t ∧ exec (.pop b) t = .next u ∧ u.reg (regIndex b) = s.reg (regIndex a) ∧
      (regIndex b ≠ 7 → u.reg 7 = s.reg 7)

/-- R152, R153 and the source's property S3: after a CALL, in any later state whose stack pointer and return-address cell
are as the CALL left them, RET goes to the address after the CALL's operand byte and restores the stack pointer. -/
def Obligations.RetReturnsAfterCall : Prop :=
  ∀ (s t u : State) (a : Byte), regByteOk a = true → s.pc.toNat + 2 < Config.memSize → exec (.call a) s = .next t →
    u.reg 7 = t.reg 7 → u.cell (t.reg 7).toNat = t.cell (t.reg 7).toNat →
    ∃ w, exec .ret u = .next w ∧ w.pc.toNat = s.pc.toNat + 2 ∧ w.reg 7 = s.reg 7

/-! ## Halt -/

/-- R160, R171, R177: HLT completes; the machine is Halted with cause Hlt and the instruction's address. (`pc` after HLT
is left unsaid: 93_implementation_defined.md U3, log 11.) -/
def Obligations.HltHalts : Prop :=
  ∀ s : State, ∃ t, exec .hlt s = .next t ∧ t.run = .halted ∧ t.cause = .hlt ∧ t.info = s.pc.toNat

/-! ## Frames -/

/-- R23, R27, R51: LD, ADD, SUB, MUL, AND, OR, XOR, INC, DEC, NOT, and DIV and MOD by a nonzero divisor, leave every
register but their first operand, the flags, the run state, the output and every byte of memory as they were. -/
def Obligations.FrameOfRegisterWriters : Prop :=
  ∀ (s t : State) (a b : Byte) (i : Instr), regByteOk a = true → regByteOk b = true →
    ((i = .div a b ∨ i = .mod a b) ∧ s.reg (regIndex b) ≠ 0 ∨
      i ∈ [Instr.ld a b, .add a b, .sub a b, .mul a b, .and a b, .or a b, .xor a b, .inc a, .dec a, .not a]) →
    exec i s = .next t →
    sameRegsBut [regIndex a] s t ∧ t.fl = s.fl ∧ sameRun s t ∧ t.out = s.out ∧ sameCellsBut [] s t

/-- R23, R27, R51, R100: LDI, whatever its immediate (above 7 too), leaves every register but its operand, the flags, the
run state, the output and every byte of memory as they were. -/
def Obligations.FrameOfLdi : Prop :=
  ∀ (s t : State) (a imm : Byte), regByteOk a = true → exec (.ldi a imm) s = .next t →
    sameRegsBut [regIndex a] s t ∧ t.fl = s.fl ∧ sameRun s t ∧ t.out = s.out ∧ sameCellsBut [] s t

/-- R23, R27, R30, R51: CMP changes only the flags; PRN and PRA only the output; JMP, JEQ, JNE, JGT and JLT nothing; HLT
only run state, cause and information; each of them also `pc`. No register and no byte of memory changes. -/
def Obligations.FrameOfInstructionsWithoutDestination : Prop :=
  ∀ (s t : State) (a b : Byte) (i : Instr), regByteOk a = true → regByteOk b = true →
    i ∈ [Instr.cmp a b, .prn a, .pra a, .jmp a, .jeq a, .jne a, .jgt a, .jlt a, .hlt] → exec i s = .next t →
    sameRegsBut [] s t ∧ sameCellsBut [] s t ∧ (i ≠ .cmp a b → t.fl = s.fl) ∧ (i ≠ .hlt → sameRun s t) ∧
      (i ≠ .prn a → i ≠ .pra a → t.out = s.out)

/-- R23, R51, R102, R150, R152, R154: ST changes no register and no byte outside the address in its first register; PUSH
and CALL change no register but R7 and no byte outside the address of the push. Flags, run state and output stay. -/
def Obligations.FrameOfStores : Prop :=
  ∀ (s t : State) (a b : Byte), regByteOk a = true → regByteOk b = true →
    (exec (.st a b) s = .next t → sameRegsBut [] s t ∧ sameCellsBut [(s.reg (regIndex a)).toNat] s t ∧
      t.fl = s.fl ∧ sameRun s t ∧ t.out = s.out) ∧
    (exec (.push a) s = .next t ∨ exec (.call a) s = .next t →
      sameRegsBut [7] s t ∧ sameCellsBut [(pushAddr s).toNat] s t ∧ t.fl = s.fl ∧ sameRun s t ∧ t.out = s.out)

/-- R23, R51, R151, R153, R155: RET changes no register but R7, POP none but R7 and its operand; no byte of memory, no
flag, no run state and no output changes. -/
def Obligations.FrameOfPops : Prop :=
  ∀ (s t : State) (a : Byte), regByteOk a = true →
    (exec .ret s = .next t → sameRegsBut [7] s t ∧ sameCellsBut [] s t ∧ t.fl = s.fl ∧ sameRun s t ∧ t.out = s.out) ∧
    (exec (.pop a) s = .next t →
      sameRegsBut [7, regIndex a] s t ∧ sameCellsBut [] s t ∧ t.fl = s.fl ∧ sameRun s t ∧ t.out = s.out)

/-! ## Rules about the whole machine -/

/-- R27: a step that changes the flags ran a CMP. -/
def Obligations.OnlyCmpWritesFlags : Prop :=
  ∀ s t : State, step s = .next t → t.fl ≠ s.fl → ∃ a b, fetches s (.cmp a b)

/-- R23, R27: an instruction that is no conditional branch and no CMP does the same whatever the flags hold. -/
def Obligations.OnlyBranchesReadFlags : Prop :=
  ∀ (i : Instr) (s t : State) (f : Flags),
    i.opcode ∉ [Opcode.jeq, .jne, .jgt, .jlt, .cmp] → exec i s = .next t → exec i (s.setFl f) = .next (t.setFl f)

/-- R43, R51, R102, R150: a step that fetches ST changes no byte of memory but the one at the address in its first
register; one that fetches PUSH or CALL none but the one at the decremented stack pointer; every other step, a step in
Halted and a step whose fetch faults among them, changes none. -/
def Obligations.OnlyStoresWriteMemory : Prop :=
  ∀ s t : State, step s = .next t →
    (∀ a b, fetches s (.st a b) → sameCellsBut [(s.reg (regIndex a)).toNat] s t) ∧
    (∀ a, fetches s (.push a) ∨ fetches s (.call a) → sameCellsBut [(pushAddr s).toNat] s t) ∧
    ((∀ i, fetches s i → i.opcode ∉ [Opcode.st, .push, .call]) → sameCellsBut [] s t)

/-- R30, R110, R111: a step only appends to the output, at most one event, and then it ran PRN or PRA. -/
def Obligations.OutputOnlyGrowsByPrnAndPra : Prop :=
  ∀ s t : State, step s = .next t →
    ∃ es, t.out = s.out ++ es ∧ es.length ≤ 1 ∧
      (es ≠ [] → ∃ i, fetches s i ∧ i.opcode ∈ [Opcode.prn, .pra])

/-- R30: the machine never reads its output: with any other output so far, the step does the same and appends the same
events. -/
def Obligations.OutputIsNeverRead : Prop :=
  ∀ (s t : State) (o : List Event), step s = .next t →
    ∃ es, t.out = s.out ++ es ∧ step { s with out := o } = .next { t with out := o ++ es }

/-! ## Load and drive -/

/-- R43, R194, R195: a program of at most `N` bytes is loaded: byte `k` stands in cell `k`, every other cell and the rest
of the state are untouched; a longer program is refused with an AddressFault at `N`. -/
def Obligations.LoaderPlacesProgram : Prop :=
  (∀ (s : State) (bytes : List Byte), bytes.length ≤ Config.memSize →
    ∃ t, loadBytes 0 bytes s = .ok t ∧ (∀ k v, bytes[k]? = some v → t.cell k = v) ∧
      (∀ x, bytes.length ≤ x → t.cell x = s.cell x) ∧ t = s.setMem t.mem) ∧
  (∀ (s : State) (bytes : List Byte), Config.memSize < bytes.length →
    loadBytes 0 bytes s = .error (.addressFault Config.memSize))

/-- R194, R195: a line that begins with the eight binary digits of a byte, bit 7 first, yields that byte whatever follows;
a significant line of fewer than eight characters, or with a character that is no binary digit among its first eight,
stops the load with InvalidProgramFormat. That the error carries the line's number, counted over all lines, is the model's
choice (DESIGN CHOICE, log 16); that the second kind of line is an InvalidProgramFormat is how the spec reads its source
(91_not_in_source.md N19, log 16). -/
def Obligations.ProgramLinesParse : Prop :=
  (∀ (v : Byte) (tail : List Char),
    parseLine ((List.range 8).map (fun k => if v.getLsbD (7 - k) then '1' else '0') ++ tail) = some v) ∧
  (∀ (n : Nat) (line : List Char) (lines : List (List Char)), lineSignificant line = true →
    (line.length < 8 ∨ ∃ c ∈ line.take 8, c ≠ '0' ∧ c ≠ '1') →
    parseProgram n (line :: lines) = .error (.invalidProgramFormat n))

/-- R90, R197: once a run has halted, more step requests change nothing: every longer run ends in the same state. -/
def Obligations.DriverStopsAtHalted : Prop :=
  ∀ (s : State) (k j : Nat), (drive k s).run = .halted → drive (k + j) s = drive k s
end

