-- ==== Sys2Proof/Laws/Memory.lean ====
section
/-! SUPPORT. The laws of the memory store (spec/20_memory.md R40): a read after a write, and the canonical form. -/

namespace Sys2Proof.Machine

@[simp] theorem Memory.read_nil (a : Nat) : Memory.read [] a = memInit a := rfl

theorem Memory.read_clear_same (m : Memory) (a : Nat) : (m.clear a).read a = memInit a := by
  induction m with
  | nil => rfl
  | cons c m ih =>
    by_cases hk : a = c.1
    · simp [Memory.clear, ← hk, ih]
    · simp [Memory.clear, Memory.read, ih, hk]

theorem Memory.read_clear_other (m : Memory) {a b : Nat} (h : b ≠ a) : (m.clear a).read b = m.read b := by
  induction m with
  | nil => rfl
  | cons c m ih =>
    by_cases hk : a = c.1
    · simp [Memory.clear, Memory.read, ← hk, ih, h]
    · by_cases hb : b = c.1 <;> simp [Memory.clear, Memory.read, ih, hk, hb]

theorem Memory.read_clear (m : Memory) (a b : Nat) :
    (m.clear a).read b = if b = a then memInit a else m.read b := by
  by_cases h : b = a
  · simp [h, Memory.read_clear_same]
  · simp [h, Memory.read_clear_other]

theorem Memory.read_insertCell_other (m : Memory) {a b : Nat} (v : Byte) (h : b ≠ a) :
    (m.insertCell a v).read b = m.read b := by
  induction m with
  | nil => simp [Memory.insertCell, Memory.read, h]
  | cons c m ih =>
    obtain ⟨k, w⟩ := c
    by_cases hk : a < k
    · simp [Memory.insertCell, Memory.read, h, hk]
    · by_cases hb : b = k <;> simp [Memory.insertCell, Memory.read, ih, hk, hb]

theorem Memory.read_insertCell_clear (m : Memory) (a : Nat) (v : Byte) : ((m.clear a).insertCell a v).read a = v := by
  induction m with
  | nil => simp [Memory.clear, Memory.insertCell, Memory.read]
  | cons c m ih =>
    obtain ⟨k, w⟩ := c
    by_cases hk : a = k
    · simpa [Memory.clear, hk] using hk ▸ ih
    · by_cases hl : a < k <;> simp [Memory.clear, Memory.insertCell, Memory.read, ih, hk, hl]

/-- A write sets the cell it names and no other (R40). -/
theorem Memory.read_write (m : Memory) (a b : Nat) (v : Byte) :
    (m.write a v).read b = if b = a then v else m.read b := by
  unfold Memory.write
  by_cases hv : v = memInit a
  · simp [hv, Memory.read_clear]
  · by_cases h : b = a
    · simp [hv, h, Memory.read_insertCell_clear]
    · simp [hv, h, Memory.read_insertCell_other, Memory.read_clear]

@[simp] theorem Memory.read_write_same (m : Memory) (a : Nat) (v : Byte) : (m.write a v).read a = v := by
  simp [Memory.read_write]

theorem Memory.read_write_other (m : Memory) {a b : Nat} (v : Byte) (h : b ≠ a) :
    (m.write a v).read b = m.read b := by
  simp [Memory.read_write, h]

theorem Memory.wfFrom_mono {lo lo' : Nat} {m : Memory} (h : m.wfFrom lo' = true) (hl : lo ≤ lo') :
    m.wfFrom lo = true := by
  cases m with
  | nil => rfl
  | cons c m =>
    simp only [Memory.wfFrom, Bool.and_eq_true, decide_eq_true_eq] at h ⊢
    exact ⟨⟨⟨by omega, h.1.1.2⟩, h.1.2⟩, h.2⟩

theorem Memory.wfFrom_clear {lo : Nat} {m : Memory} (a : Nat) (h : m.wfFrom lo = true) :
    (m.clear a).wfFrom lo = true := by
  induction m generalizing lo with
  | nil => rfl
  | cons c m ih =>
    obtain ⟨k, w⟩ := c
    simp only [Memory.wfFrom, Bool.and_eq_true, decide_eq_true_eq] at h
    by_cases hk : a = k
    · simpa [Memory.clear, hk] using Memory.wfFrom_mono (hk ▸ ih h.2) (by omega)
    · simp only [Memory.clear, hk, if_false, Memory.wfFrom, Bool.and_eq_true, decide_eq_true_eq]
      exact ⟨h.1, ih h.2⟩

theorem Memory.wfFrom_insertCell_clear {lo a : Nat} {m : Memory} {v : Byte} (h : m.wfFrom lo = true) (hl : lo ≤ a)
    (ha : a < Config.memSize) (hv : v ≠ memInit a) : ((m.clear a).insertCell a v).wfFrom lo = true := by
  induction m generalizing lo with
  | nil => simp [Memory.clear, Memory.insertCell, Memory.wfFrom, hl, ha, hv]
  | cons c m ih =>
    obtain ⟨k, w⟩ := c
    simp only [Memory.wfFrom, Bool.and_eq_true, decide_eq_true_eq] at h
    by_cases hk : a = k
    · simpa [Memory.clear, hk] using hk ▸ ih (Memory.wfFrom_mono h.2 (by omega)) hl
    · by_cases hlt : a < k
      · have hc := Memory.wfFrom_clear a h.2
        simp only [Memory.clear, hk, if_false, Memory.insertCell, hlt, if_true, Memory.wfFrom, Bool.and_eq_true,
          decide_eq_true_eq]
        exact ⟨⟨⟨hl, ha⟩, hv⟩, ⟨⟨by omega, h.1.1.2⟩, h.1.2⟩, hc⟩
      · simp only [Memory.clear, hk, if_false, Memory.insertCell, hlt, Memory.wfFrom, Bool.and_eq_true,
          decide_eq_true_eq]
        exact ⟨h.1, ih h.2 (by omega)⟩

/-- Every write to a cell that exists keeps the canonical form. -/
theorem Memory.wf_write {m : Memory} {a : Nat} {v : Byte} (h : m.wf = true) (ha : a < Config.memSize) :
    (m.write a v).wf = true := by
  unfold Memory.write Memory.wf at *
  by_cases hv : v = memInit a
  · simpa only [hv, if_true] using Memory.wfFrom_clear a h
  · simpa only [hv, if_false] using Memory.wfFrom_insertCell_clear h (Nat.zero_le a) ha hv

end Sys2Proof.Machine
end

