-- ==== Sys2Proof/Laws/State.lean ====
section
/-! SUPPORT. What each field of the state is after each update, and the laws of the register file. -/

namespace Sys2Proof.Machine

@[simp] theorem State.setReg_regs (s : State) (r : Reg) (v : Byte) : (s.setReg r v).regs = s.regs.set r v := rfl
@[simp] theorem State.setReg_pc (s : State) (r : Reg) (v : Byte) : (s.setReg r v).pc = s.pc := rfl
@[simp] theorem State.setReg_fl (s : State) (r : Reg) (v : Byte) : (s.setReg r v).fl = s.fl := rfl
@[simp] theorem State.setReg_run (s : State) (r : Reg) (v : Byte) : (s.setReg r v).run = s.run := rfl
@[simp] theorem State.setReg_cause (s : State) (r : Reg) (v : Byte) : (s.setReg r v).cause = s.cause := rfl
@[simp] theorem State.setReg_info (s : State) (r : Reg) (v : Byte) : (s.setReg r v).info = s.info := rfl
@[simp] theorem State.setReg_mem (s : State) (r : Reg) (v : Byte) : (s.setReg r v).mem = s.mem := rfl
@[simp] theorem State.setReg_out (s : State) (r : Reg) (v : Byte) : (s.setReg r v).out = s.out := rfl

@[simp] theorem State.setPc_regs (s : State) (v : PcWord) : (s.setPc v).regs = s.regs := rfl
@[simp] theorem State.setPc_pc (s : State) (v : PcWord) : (s.setPc v).pc = v := rfl
@[simp] theorem State.setPc_fl (s : State) (v : PcWord) : (s.setPc v).fl = s.fl := rfl
@[simp] theorem State.setPc_run (s : State) (v : PcWord) : (s.setPc v).run = s.run := rfl
@[simp] theorem State.setPc_cause (s : State) (v : PcWord) : (s.setPc v).cause = s.cause := rfl
@[simp] theorem State.setPc_info (s : State) (v : PcWord) : (s.setPc v).info = s.info := rfl
@[simp] theorem State.setPc_mem (s : State) (v : PcWord) : (s.setPc v).mem = s.mem := rfl
@[simp] theorem State.setPc_out (s : State) (v : PcWord) : (s.setPc v).out = s.out := rfl

@[simp] theorem State.setFl_regs (s : State) (f : Flags) : (s.setFl f).regs = s.regs := rfl
@[simp] theorem State.setFl_pc (s : State) (f : Flags) : (s.setFl f).pc = s.pc := rfl
@[simp] theorem State.setFl_fl (s : State) (f : Flags) : (s.setFl f).fl = f := rfl
@[simp] theorem State.setFl_run (s : State) (f : Flags) : (s.setFl f).run = s.run := rfl
@[simp] theorem State.setFl_cause (s : State) (f : Flags) : (s.setFl f).cause = s.cause := rfl
@[simp] theorem State.setFl_info (s : State) (f : Flags) : (s.setFl f).info = s.info := rfl
@[simp] theorem State.setFl_mem (s : State) (f : Flags) : (s.setFl f).mem = s.mem := rfl
@[simp] theorem State.setFl_out (s : State) (f : Flags) : (s.setFl f).out = s.out := rfl

@[simp] theorem State.setMem_regs (s : State) (m : Memory) : (s.setMem m).regs = s.regs := rfl
@[simp] theorem State.setMem_pc (s : State) (m : Memory) : (s.setMem m).pc = s.pc := rfl
@[simp] theorem State.setMem_fl (s : State) (m : Memory) : (s.setMem m).fl = s.fl := rfl
@[simp] theorem State.setMem_run (s : State) (m : Memory) : (s.setMem m).run = s.run := rfl
@[simp] theorem State.setMem_cause (s : State) (m : Memory) : (s.setMem m).cause = s.cause := rfl
@[simp] theorem State.setMem_info (s : State) (m : Memory) : (s.setMem m).info = s.info := rfl
@[simp] theorem State.setMem_mem (s : State) (m : Memory) : (s.setMem m).mem = m := rfl
@[simp] theorem State.setMem_out (s : State) (m : Memory) : (s.setMem m).out = s.out := rfl

@[simp] theorem State.emit_regs (s : State) (e : Event) : (s.emit e).regs = s.regs := rfl
@[simp] theorem State.emit_pc (s : State) (e : Event) : (s.emit e).pc = s.pc := rfl
@[simp] theorem State.emit_fl (s : State) (e : Event) : (s.emit e).fl = s.fl := rfl
@[simp] theorem State.emit_run (s : State) (e : Event) : (s.emit e).run = s.run := rfl
@[simp] theorem State.emit_cause (s : State) (e : Event) : (s.emit e).cause = s.cause := rfl
@[simp] theorem State.emit_info (s : State) (e : Event) : (s.emit e).info = s.info := rfl
@[simp] theorem State.emit_mem (s : State) (e : Event) : (s.emit e).mem = s.mem := rfl
@[simp] theorem State.emit_out (s : State) (e : Event) : (s.emit e).out = s.out ++ [e] := rfl

@[simp] theorem State.halt_regs (s : State) (c : Cause) (n : Nat) : (s.halt c n).regs = s.regs := rfl
@[simp] theorem State.halt_pc (s : State) (c : Cause) (n : Nat) : (s.halt c n).pc = s.pc := rfl
@[simp] theorem State.halt_fl (s : State) (c : Cause) (n : Nat) : (s.halt c n).fl = s.fl := rfl
@[simp] theorem State.halt_run (s : State) (c : Cause) (n : Nat) : (s.halt c n).run = .halted := rfl
@[simp] theorem State.halt_cause (s : State) (c : Cause) (n : Nat) : (s.halt c n).cause = c := rfl
@[simp] theorem State.halt_info (s : State) (c : Cause) (n : Nat) : (s.halt c n).info = n := rfl
@[simp] theorem State.halt_mem (s : State) (c : Cause) (n : Nat) : (s.halt c n).mem = s.mem := rfl
@[simp] theorem State.halt_out (s : State) (c : Cause) (n : Nat) : (s.halt c n).out = s.out := rfl

@[simp] theorem State.reg_setPc (s : State) (v : PcWord) (q : Reg) : (s.setPc v).reg q = s.reg q := rfl
@[simp] theorem State.reg_setFl (s : State) (f : Flags) (q : Reg) : (s.setFl f).reg q = s.reg q := rfl
@[simp] theorem State.reg_setMem (s : State) (m : Memory) (q : Reg) : (s.setMem m).reg q = s.reg q := rfl
@[simp] theorem State.reg_emit (s : State) (e : Event) (q : Reg) : (s.emit e).reg q = s.reg q := rfl
@[simp] theorem State.reg_halt (s : State) (c : Cause) (n : Nat) (q : Reg) : (s.halt c n).reg q = s.reg q := rfl

@[simp] theorem State.cell_setReg (s : State) (r : Reg) (v : Byte) (x : Nat) : (s.setReg r v).cell x = s.cell x := rfl
@[simp] theorem State.cell_setPc (s : State) (v : PcWord) (x : Nat) : (s.setPc v).cell x = s.cell x := rfl
@[simp] theorem State.cell_setFl (s : State) (f : Flags) (x : Nat) : (s.setFl f).cell x = s.cell x := rfl
@[simp] theorem State.cell_emit (s : State) (e : Event) (x : Nat) : (s.emit e).cell x = s.cell x := rfl
@[simp] theorem State.cell_halt (s : State) (c : Cause) (n : Nat) (x : Nat) : (s.halt c n).cell x = s.cell x := rfl
@[simp] theorem State.cell_setMem (s : State) (m : Memory) (x : Nat) : (s.setMem m).cell x = m.read x := rfl

/-- A register reads as the value last written to it (R21); every other register keeps its value. -/
theorem State.reg_setReg (s : State) (r q : Reg) (v : Byte) : (s.setReg r v).reg q = if q = r then v else s.reg q := by
  by_cases h : q = r
  · simp [State.reg, State.setReg, h]
  · have hv : r.val ≠ q.val := fun e => h (Fin.ext e.symm)
    simp [State.reg, State.setReg, hv, h]

@[simp] theorem State.reg_setReg_same (s : State) (r : Reg) (v : Byte) : (s.setReg r v).reg r = v := by
  simp [State.reg_setReg]

theorem State.reg_setReg_other (s : State) {r q : Reg} (v : Byte) (h : q ≠ r) : (s.setReg r v).reg q = s.reg q := by
  simp [State.reg_setReg, h]

/-- `sp` is register 7 under another name (R22). -/
@[simp] theorem State.sp_eq_reg (s : State) : s.sp = s.reg 7 := rfl

end Sys2Proof.Machine
end

