-- ==== Sys2Proof/Laws/Ops.lean ====
section
/-! SUPPORT. One lemma for each shared operation, saying everything it can do. -/

namespace Sys2Proof.Machine

@[simp] theorem Res.bind_ok {α β : Type} (v : α) (s : State) (k : α → State → Res β) : (Res.ok v s).bind k = k v s := rfl

@[simp] theorem Res.bind_raised {α β : Type} (s : State) (k : α → State → Res β) : (Res.raised s).bind k = .raised s := rfl

@[simp] theorem Res.bind_raise {α β : Type} (c : Cause) (n : Nat) (s : State) (k : α → State → Res β) :
    (raise c n s : Res α).bind k = raise c n s := rfl

/-- Everything a part of a step followed by another can do. -/
theorem Res.bind_ok_cases {α β : Type} {r : Res α} {k : α → State → Res β} {w : β} {t : State} (h : r.bind k = .ok w t) :
    ∃ v u, r = .ok v u ∧ k v u = .ok w t := by
  cases r with
  | ok v u => exact ⟨v, u, rfl, h⟩
  | raised u => cases h

/-- Masking an integer to a byte is the mathematical remainder modulo 256 (R9, R120). -/
theorem toNat_mask8 (v : Int) : (mask8 v).toNat = (v % 256).toNat := by
  simp [mask8, BitVec.toNat_ofInt]

/-- Masking a natural number. -/
theorem toNat_mask8_natCast (n : Nat) : (mask8 (n : Int)).toNat = n % 256 := by
  rw [toNat_mask8]
  omega

@[simp] theorem toNat_zext9 (v : Byte) : (zext9 v).toNat = v.toNat := by
  have := v.isLt
  simp [zext9, BitVec.toNat_setWidth]
  omega

/-- Every byte is an address of the memory (R41, R35). -/
theorem byte_lt_memSize (v : Byte) : v.toNat < Config.memSize := v.isLt

/-- A read of a cell that exists answers its byte and changes nothing (R11, R40). -/
theorem memRead_of_lt {a : Nat} (s : State) (h : a < Config.memSize) : memRead a s = .ok (s.cell a) s := if_pos h

/-- A read outside the memory raises AddressFault with the address (R11, R41). -/
theorem memRead_of_ge {a : Nat} (s : State) (h : Config.memSize ≤ a) : memRead a s = raise .addressFault a s :=
  if_neg (Nat.not_lt.mpr h)

/-- A write to a cell that exists (R11, R40). -/
theorem memWrite_of_lt {a : Nat} (v : Byte) (s : State) (h : a < Config.memSize) :
    memWrite a v s = .ok () (s.setMem (s.mem.write a v)) := if_pos h

/-- A write outside the memory raises AddressFault and changes no cell (R11, R41). -/
theorem memWrite_of_ge {a : Nat} (v : Byte) (s : State) (h : Config.memSize ≤ a) :
    memWrite a v s = raise .addressFault a s := if_neg (Nat.not_lt.mpr h)

@[simp] theorem memRead_byte (b : Byte) (s : State) : memRead b.toNat s = .ok (s.cell b.toNat) s :=
  memRead_of_lt s (byte_lt_memSize b)

@[simp] theorem memWrite_byte (b v : Byte) (s : State) :
    memWrite b.toNat v s = .ok () (s.setMem (s.mem.write b.toNat v)) := memWrite_of_lt v s (byte_lt_memSize b)

/-- A push stores below the old stack pointer and leaves the stack pointer there (R150). -/
theorem push_eq (v : Byte) (s : State) :
    push v s = .ok () ((s.setReg 7 (pushAddr s)).setMem (s.mem.write (pushAddr s).toNat v)) :=
  memWrite_byte _ _ _

/-- The address a push stores at: `sp - 1` modulo 256 (R22, R150). -/
theorem toNat_pushAddr (s : State) : (pushAddr s).toNat = ((s.reg 7).toNat + 255) % 256 := by
  rw [pushAddr, toNat_mask8, State.sp_eq_reg]
  omega

/-- A pop answers the byte at the stack pointer and moves the stack pointer up (R151). -/
theorem pop_eq (s : State) :
    pop s = .ok (s.cell (s.reg 7).toNat) (s.setReg 7 (mask8 (((s.reg 7).toNat : Int) + 1))) := by
  simp [pop, spReg]

@[simp] theorem finish_raise (row : Opcode) (pc0 : PcWord) (c : Cause) (n : Nat) (s : State) :
    finish row pc0 (raise c n s) = .next (s.halt c n) := rfl

@[simp] theorem finish_ok_false (row : Opcode) (pc0 : PcWord) (s : State) :
    finish row pc0 (.ok false s) = .next (s.setPc (pc0 + BitVec.ofNat 9 (rowLength row))) := rfl

@[simp] theorem finish_ok_true (row : Opcode) (pc0 : PcWord) (s : State) :
    finish row pc0 (.ok true s) = .next s := rfl

/-- The end of a step always answers a next state (R203). -/
theorem finish_total (row : Opcode) (pc0 : PcWord) (r : Res Bool) : ∃ t, finish row pc0 r = .next t := by
  cases r <;> exact ⟨_, rfl⟩

/-- The three reads of the fetch, when their addresses exist (R81, R82). -/
theorem fetch_of_lt (s : State) (h : s.pc.toNat + 2 < Config.memSize) :
    fetch s = .ok (s.cell s.pc.toNat, s.cell (s.pc.toNat + 1), s.cell (s.pc.toNat + 2)) s := by
  simp [fetch, memRead_of_lt s (show s.pc.toNat < Config.memSize by omega),
    memRead_of_lt s (show s.pc.toNat + 1 < Config.memSize by omega), memRead_of_lt s h]

/-- A memory read keeps the canonical form: it changes no cell. -/
theorem memRead_keeps_wf {a : Nat} {s t : State} {v : Byte} (h : memRead a s = .ok v t) : t.mem = s.mem := by
  unfold memRead at h
  split at h
  · cases h
    rfl
  · cases h

/-- A memory write keeps the canonical form. -/
theorem memWrite_keeps_wf {a : Nat} {v : Byte} {s t : State} (h : memWrite a v s = .ok () t) (hs : s.mem.wf = true) :
    t.mem.wf = true := by
  unfold memWrite at h
  split at h
  · cases h
    exact Memory.wf_write hs ‹_›
  · cases h

/-- A push keeps the canonical form. -/
theorem push_keeps_wf {v : Byte} {s t : State} (h : push v s = .ok () t) (hs : s.mem.wf = true) : t.mem.wf = true :=
  memWrite_keeps_wf h hs

/-- A pop keeps the canonical form: it changes no cell. -/
theorem pop_keeps_wf {s t : State} {v : Byte} (h : pop s = .ok v t) : t.mem = s.mem := by
  rw [pop_eq] at h
  cases h
  rfl

/-- Placing an instruction word keeps the canonical form. -/
theorem placeWord_keeps_wf (s : State) (b : Byte × Byte × Byte) (hs : s.mem.wf = true) : (placeWord s b).mem.wf = true := by
  unfold placeWord
  split
  · exact Memory.wf_write (Memory.wf_write (Memory.wf_write hs (by omega)) (by omega)) (by omega)
  · exact hs

/-- Loading a program keeps the canonical form. -/
theorem loadBytes_keeps_wf {a : Nat} {vs : List Byte} {s t : State} (h : loadBytes a vs s = .ok t)
    (hs : s.mem.wf = true) : t.mem.wf = true := by
  induction vs generalizing a s with
  | nil =>
    cases h
    exact hs
  | cons v vs ih =>
    unfold loadBytes at h
    split at h
    · exact ih h (memWrite_keeps_wf ‹_› hs)
    · cases h

/-- The memory after reset is canonical. -/
theorem reset_mem_wf : State.reset.mem.wf = true := rfl

end Sys2Proof.Machine
end

