-- ==== Sys2Proof/Laws/Operands.lean ====
section
/-! SUPPORT. What the frames of the four formats do, and what the shared instruction bodies leave. -/

namespace Sys2Proof.Machine

theorem reservedOperand_eq_false {o : Byte} (h : regByteOk o = true) : reservedOperand o = false := by
  simp [regByteOk, reservedOperand] at *
  omega

theorem reservedOperand_eq_true {o : Byte} (h : regByteOk o = false) : reservedOperand o = true := by
  simp [regByteOk, reservedOperand] at *
  omega

/-- A legal operand byte selects the register with its own number (R64). -/
theorem val_regIndex {o : Byte} (h : regByteOk o = true) : (regIndex o).val = o.toNat := by
  simp [regByteOk, regIndex] at *
  omega

/-- A legal operand of a format R or RI instruction: its body runs (R85, R86). -/
theorem frameR_of_ok (row : Opcode) {a : Byte} (body : Reg → State → Res Bool) (s : State) (h : regByteOk a = true) :
    frameR row a body s = finish row s.pc (body (regIndex a) s) := by
  simp [frameR, reservedOperand_eq_false h]

/-- A reserved operand of a format R or RI instruction: ReservedOperand, and nothing else changes (R86, R175). -/
theorem frameR_of_reserved (row : Opcode) {a : Byte} (body : Reg → State → Res Bool) (s : State)
    (h : regByteOk a = false) : frameR row a body s = .next (s.halt .reservedOperand a.toNat) := by
  simp [frameR, reservedOperand_eq_true h]

/-- Two legal operands: the body runs (R85, R86). -/
theorem frameRR_of_ok (row : Opcode) {a b : Byte} (body : Reg → Reg → State → Res Bool) (s : State)
    (ha : regByteOk a = true) (hb : regByteOk b = true) :
    frameRR row a b body s = finish row s.pc (body (regIndex a) (regIndex b) s) := by
  simp [frameRR, reservedOperand_eq_false ha, reservedOperand_eq_false hb]

/-- The first operand is checked first (R86, R179). -/
theorem frameRR_of_reserved_first (row : Opcode) {a : Byte} (b : Byte) (body : Reg → Reg → State → Res Bool) (s : State)
    (h : regByteOk a = false) : frameRR row a b body s = .next (s.halt .reservedOperand a.toNat) := by
  simp [frameRR, reservedOperand_eq_true h]

theorem frameRR_of_reserved_second (row : Opcode) {a b : Byte} (body : Reg → Reg → State → Res Bool) (s : State)
    (ha : regByteOk a = true) (hb : regByteOk b = false) :
    frameRR row a b body s = .next (s.halt .reservedOperand b.toNat) := by
  simp [frameRR, reservedOperand_eq_false ha, reservedOperand_eq_true hb]

/-- The length the advance uses is the one the table's format column gives (R60, R62, R88). -/
@[simp] theorem rowLength_eq (row : Opcode) :
    rowLength row = match opcodeFormat row with
      | .z => 1
      | .r => 2
      | .rr | .ri => 3 := by
  cases row <;> decide

@[simp] theorem aluBinary_eq (op : Byte → Byte → Byte) (ra rb : Reg) (s : State) :
    aluBinary op ra rb s = .ok false (s.setReg ra (op (s.reg ra) (s.reg rb))) := rfl

@[simp] theorem aluUnary_eq (op : Byte → Byte) (ra : Reg) (s : State) :
    aluUnary op ra s = .ok false (s.setReg ra (op (s.reg ra))) := rfl

/-- Everything a dividing body can do (R124, R125). -/
theorem aluDividing_cases (op : Byte → Byte → Option Byte) (ra rb : Reg) (s : State) :
    (∃ v, op (s.reg ra) (s.reg rb) = some v ∧ aluDividing op ra rb s = .ok false (s.setReg ra v)) ∨
    (op (s.reg ra) (s.reg rb) = none ∧ aluDividing op ra rb s = raise .arithmeticFault s.pc.toNat s) := by
  unfold aluDividing
  cases op (s.reg ra) (s.reg rb) with
  | some v => exact .inl ⟨v, rfl, rfl⟩
  | none => exact .inr ⟨rfl, rfl⟩

/-- Everything a jump's body can do (R87, R140, R141). -/
theorem jumpIf_cases (cond : Flags → Bool) (ra : Reg) (s : State) :
    (cond s.fl = true ∧ jumpIf cond ra s = .ok true (s.setPc (zext9 (s.reg ra)))) ∨
    (cond s.fl = false ∧ jumpIf cond ra s = .ok false s) := by
  unfold jumpIf
  cases cond s.fl <;> simp

end Sys2Proof.Machine
end

