-- ==== Sys2Proof/Laws/Exec.lean ====
section
/-! SUPPORT. What `exec` and `step` can do, said once: every next state is one of the shapes of `Effect`. -/

namespace Sys2Proof.Machine

/-- The shapes of a completed instruction or fault: `Effect i s t` relates the state before to the state after. -/
inductive Effect : Instr → State → State → Prop where
  /-- a fault of the operand check or of a zero divisor (R86, R124) -/
  | fault (i : Instr) (s : State) (c : Cause) (n : Nat) (hc : c = .reservedOperand ∨ c = .arithmeticFault) :
      Effect i s (s.halt c n)
  /-- one register written: LDI, LD and the ALU but CMP -/
  | writeReg (i : Instr) (s : State) (a v : Byte) (hi : opcodePcControl i.opcode = .no)
      (ha : i.regOperands.head? = some a) (hok : regByteOk a = true) :
      Effect i s ((s.setReg (regIndex a) v).setPc (s.pc + BitVec.ofNat 9 (rowLength i.opcode)))
  /-- ST -/
  | store (s : State) (a b : Byte) (ha : regByteOk a = true) (hb : regByteOk b = true) :
      Effect (.st a b) s
        ((s.setMem (s.mem.write (s.reg (regIndex a)).toNat (s.reg (regIndex b)))).setPc (s.pc + 3))
  /-- PRN and PRA -/
  | emit (i : Instr) (s : State) (e : Event) (hi : i.opcode = .prn ∨ i.opcode = .pra) :
      Effect i s ((s.emit e).setPc (s.pc + 2))
  /-- CMP -/
  | compare (s : State) (a b x y : Byte) : Effect (.cmp a b) s ((s.setFl (cmpFlags x y)).setPc (s.pc + 3))
  /-- JMP and a taken branch -/
  | jump (i : Instr) (s : State) (v : Byte) (hi : opcodePcControl i.opcode ≠ .no) : Effect i s (s.setPc (zext9 v))
  /-- a branch not taken -/
  | fallThrough (i : Instr) (s : State) (hi : opcodePcControl i.opcode = .whenTaken) : Effect i s (s.setPc (s.pc + 2))
  /-- CALL -/
  | call (s : State) (a v : Byte) :
      Effect (.call a) s (((s.setReg 7 (pushAddr s)).setMem
        (s.mem.write (pushAddr s).toNat (returnAddress s.pc))).setPc (zext9 v))
  /-- RET -/
  | ret (s : State) (n : Byte) :
      Effect .ret s ((s.setReg 7 n).setPc (zext9 (s.cell (s.reg 7).toNat)))
  /-- PUSH -/
  | push (s : State) (a : Byte) (ha : regByteOk a = true) :
      Effect (.push a) s (((s.setReg 7 (pushAddr s)).setMem
        (s.mem.write (pushAddr s).toNat (s.reg (regIndex a)))).setPc (s.pc + 2))
  /-- POP -/
  | pop (s : State) (a n : Byte) (ha : regByteOk a = true) :
      Effect (.pop a) s (((s.setReg 7 n).setReg (regIndex a) (s.cell (s.reg 7).toNat)).setPc (s.pc + 2))
  /-- HLT -/
  | hlt (s : State) : Effect .hlt s ((s.halt .hlt s.pc.toNat).setPc (s.pc + 1))

/-- What a frame of format R or RI does: the operand fault, or the body. -/
theorem frameR_cases {row : Opcode} {a : Byte} {body : Reg → State → Res Bool} {s t : State}
    (h : frameR row a body s = .next t) :
    t = s.halt .reservedOperand a.toNat ∨
      regByteOk a = true ∧ finish row s.pc (body (regIndex a) s) = .next t := by
  cases ha : regByteOk a with
  | false =>
    rw [frameR_of_reserved _ _ _ ha] at h
    exact .inl (by cases h; rfl)
  | true => exact .inr ⟨rfl, by rwa [frameR_of_ok _ _ _ ha] at h⟩

/-- What a frame of format RR does: an operand fault, or the body. -/
theorem frameRR_cases {row : Opcode} {a b : Byte} {body : Reg → Reg → State → Res Bool} {s t : State}
    (h : frameRR row a b body s = .next t) :
    (∃ n, t = s.halt .reservedOperand n) ∨
      regByteOk a = true ∧ regByteOk b = true ∧
        finish row s.pc (body (regIndex a) (regIndex b) s) = .next t := by
  cases ha : regByteOk a with
  | false =>
    rw [frameRR_of_reserved_first _ _ _ _ ha] at h
    exact .inl ⟨_, by cases h; rfl⟩
  | true =>
    cases hb : regByteOk b with
    | false =>
      rw [frameRR_of_reserved_second _ _ _ ha hb] at h
      exact .inl ⟨_, by cases h; rfl⟩
    | true => exact .inr ⟨rfl, rfl, by rwa [frameRR_of_ok _ _ _ ha hb] at h⟩

/-- A two-register ALU instruction of row `row`. -/
theorem effect_aluBinary {i : Instr} {a b : Byte} {op : Byte → Byte → Byte} {s t : State}
    (hi : opcodePcControl i.opcode = .no) (ha : i.regOperands.head? = some a)
    (h : frameRR i.opcode a b (aluBinary op) s = .next t) : Effect i s t := by
  obtain ⟨n, rfl⟩ | ⟨hok, -, h⟩ := frameRR_cases h
  · exact .fault i s _ n (.inl rfl)
  · cases h
    exact .writeReg i s a _ hi ha hok

/-- A dividing instruction of row `row`. -/
theorem effect_aluDividing {i : Instr} {a b : Byte} {op : Byte → Byte → Option Byte} {s t : State}
    (hi : opcodePcControl i.opcode = .no) (ha : i.regOperands.head? = some a)
    (h : frameRR i.opcode a b (aluDividing op) s = .next t) : Effect i s t := by
  obtain ⟨n, rfl⟩ | ⟨hok, -, h⟩ := frameRR_cases h
  · exact .fault i s _ n (.inl rfl)
  · obtain ⟨v, -, hv⟩ | ⟨-, hv⟩ := aluDividing_cases op (regIndex a) (regIndex b) s
    · rw [hv] at h
      cases h
      exact .writeReg i s a _ hi ha hok
    · rw [hv] at h
      cases h
      exact .fault i s _ _ (.inr rfl)

/-- A one-register ALU instruction of row `row`. -/
theorem effect_aluUnary {i : Instr} {a : Byte} {op : Byte → Byte} {s t : State}
    (hi : opcodePcControl i.opcode = .no) (ha : i.regOperands.head? = some a)
    (h : frameR i.opcode a (aluUnary op) s = .next t) : Effect i s t := by
  obtain rfl | ⟨hok, h⟩ := frameR_cases h
  · exact .fault i s _ _ (.inl rfl)
  · cases h
    exact .writeReg i s a _ hi ha hok

/-- A conditional branch. -/
theorem effect_branch {i : Instr} {a : Byte} {cond : Flags → Bool} {s t : State}
    (hi : opcodePcControl i.opcode = .whenTaken) (hl : rowLength i.opcode = 2)
    (h : frameR i.opcode a (jumpIf cond) s = .next t) : Effect i s t := by
  obtain rfl | ⟨-, h⟩ := frameR_cases h
  · exact .fault i s _ _ (.inl rfl)
  · obtain ⟨-, hv⟩ | ⟨-, hv⟩ := jumpIf_cases cond (regIndex a) s
    · rw [hv] at h
      cases h
      exact .jump i s _ (by simp [hi])
    · rw [hv, finish_ok_false, hl] at h
      cases h
      exact .fallThrough i s hi

/-- Everything an instruction can do. -/
theorem exec_effect {i : Instr} {s t : State} (h : exec i s = .next t) : Effect i s t := by
  cases i with
  | ldi a imm =>
    obtain rfl | ⟨hok, h⟩ := frameR_cases (body := fun ra s => .ok false (s.setReg ra imm)) h
    · exact .fault _ s _ _ (.inl rfl)
    · cases h
      exact .writeReg (.ldi a imm) s a imm rfl rfl hok
  | ld a b =>
    obtain ⟨n, rfl⟩ | ⟨hok, -, h⟩ := frameRR_cases
      (body := fun ra rb s => (memRead (s.reg rb).toNat s).bind fun v t => .ok false (t.setReg ra v)) h
    · exact .fault _ s _ n (.inl rfl)
    · rw [memRead_byte] at h
      cases h
      exact .writeReg (.ld a b) s a _ rfl rfl hok
  | st a b =>
    obtain ⟨n, rfl⟩ | ⟨ha, hb, h⟩ := frameRR_cases
      (body := fun ra rb s => (memWrite (s.reg ra).toNat (s.reg rb) s).bind fun _ t => .ok false t) h
    · exact .fault _ s _ n (.inl rfl)
    · rw [memWrite_byte] at h
      cases h
      exact .store s a b ha hb
  | prn a =>
    obtain rfl | ⟨-, h⟩ := frameR_cases (body := fun ra s => .ok false (s.emit (.num (s.reg ra)))) h
    · exact .fault _ s _ _ (.inl rfl)
    · cases h
      exact .emit (.prn a) s _ (.inl rfl)
  | pra a =>
    obtain rfl | ⟨-, h⟩ := frameR_cases (body := fun ra s => .ok false (s.emit (.chr (s.reg ra)))) h
    · exact .fault _ s _ _ (.inl rfl)
    · cases h
      exact .emit (.pra a) s _ (.inr rfl)
  | add a b => exact effect_aluBinary rfl rfl h
  | sub a b => exact effect_aluBinary rfl rfl h
  | mul a b => exact effect_aluBinary rfl rfl h
  | div a b => exact effect_aluDividing rfl rfl h
  | mod a b => exact effect_aluDividing rfl rfl h
  | and a b => exact effect_aluBinary rfl rfl h
  | or a b => exact effect_aluBinary rfl rfl h
  | xor a b => exact effect_aluBinary rfl rfl h
  | inc a => exact effect_aluUnary rfl rfl h
  | dec a => exact effect_aluUnary rfl rfl h
  | not a => exact effect_aluUnary rfl rfl h
  | cmp a b =>
    obtain ⟨n, rfl⟩ | ⟨-, -, h⟩ := frameRR_cases
      (body := fun ra rb s => .ok false (s.setFl (cmpFlags (s.reg ra) (s.reg rb)))) h
    · exact .fault _ s _ n (.inl rfl)
    · cases h
      exact .compare s a b _ _
  | jmp a =>
    obtain rfl | ⟨-, h⟩ := frameR_cases (body := jumpIf fun _ => true) h
    · exact .fault _ s _ _ (.inl rfl)
    · cases h
      exact .jump (.jmp a) s _ (by simp [Instr.opcode, opcodePcControl])
  | jeq a => exact effect_branch rfl (by decide : rowLength .jeq = 2) h
  | jne a => exact effect_branch rfl (by decide : rowLength .jne = 2) h
  | jgt a => exact effect_branch rfl (by decide : rowLength .jgt = 2) h
  | jlt a => exact effect_branch rfl (by decide : rowLength .jlt = 2) h
  | call a =>
    obtain rfl | ⟨-, h⟩ := frameR_cases
      (body := fun ra s => (push (returnAddress s.pc) s).bind fun _ t => .ok true (t.setPc (zext9 (t.reg ra)))) h
    · exact .fault _ s _ _ (.inl rfl)
    · rw [push_eq] at h
      cases h
      exact .call s a _
  | ret =>
    have h : finish .ret s.pc ((pop s).bind fun v t => .ok true (t.setPc (zext9 v))) = .next t := h
    rw [pop_eq] at h
    cases h
    exact .ret s _
  | push a =>
    obtain rfl | ⟨ha, h⟩ := frameR_cases (body := fun ra s => (push (s.reg ra) s).bind fun _ t => .ok false t) h
    · exact .fault _ s _ _ (.inl rfl)
    · rw [push_eq] at h
      cases h
      exact .push s a ha
  | pop a =>
    obtain rfl | ⟨ha, h⟩ := frameR_cases (body := fun ra s => (pop s).bind fun v t => .ok false (t.setReg ra v)) h
    · exact .fault _ s _ _ (.inl rfl)
    · rw [pop_eq] at h
      cases h
      exact .pop s a _ ha
  | hlt =>
    cases h
    exact .hlt s

/-- Everything a fetch can do: the three cells at `pc`, or an AddressFault when the last of them does not exist. -/
theorem fetch_cases (s : State) :
    (s.pc.toNat + 2 < Config.memSize ∧
      fetch s = .ok (s.cell s.pc.toNat, s.cell (s.pc.toNat + 1), s.cell (s.pc.toNat + 2)) s) ∨
    (Config.memSize ≤ s.pc.toNat + 2 ∧ ∃ n, fetch s = .raised (s.halt .addressFault n)) := by
  by_cases h : s.pc.toNat + 2 < Config.memSize
  · exact .inl ⟨h, fetch_of_lt s h⟩
  · refine .inr ⟨by omega, ?_⟩
    by_cases h0 : s.pc.toNat < Config.memSize
    · by_cases h1 : s.pc.toNat + 1 < Config.memSize
      · refine ⟨s.pc.toNat + 2, ?_⟩
        simp only [fetch, memRead_of_lt s h0, memRead_of_lt s h1, memRead_of_ge s (Nat.not_lt.mp h), Res.bind_ok,
          Res.bind_raised, raise]
      · refine ⟨s.pc.toNat + 1, ?_⟩
        simp only [fetch, memRead_of_lt s h0, memRead_of_ge s (Nat.not_lt.mp h1), Res.bind_ok, Res.bind_raised, raise]
    · refine ⟨s.pc.toNat, ?_⟩
      simp only [fetch, memRead_of_ge s (Nat.not_lt.mp h0), Res.bind_raised, raise]

/-- Everything a step can do (R80): nothing in Halted; a fetch or decode fault; or one instruction's effect. -/
theorem step_cases {s t : State} (h : step s = .next t) :
    (s.run = .halted ∧ t = s) ∨
    (s.run = .running ∧ ∃ c n, (c = .addressFault ∨ c = .unknownOpcode) ∧ t = s.halt c n) ∨
    (∃ i, fetches s i ∧ exec i s = .next t) := by
  unfold step at h
  cases hr : s.run with
  | halted =>
    rw [hr] at h
    exact .inl ⟨rfl, by cases h; rfl⟩
  | running =>
    simp only [hr] at h
    obtain ⟨hlt, hf⟩ | ⟨-, n, hf⟩ := fetch_cases s
    · rw [fetchInstr, hf, Res.bind_ok, decodeLatches] at h
      cases hd : decode (s.cell s.pc.toNat) (s.cell (s.pc.toNat + 1)) (s.cell (s.pc.toNat + 2)) with
      | instr i =>
        simp only [hd] at h
        exact .inr (.inr ⟨i, ⟨hr, hlt, hd⟩, h⟩)
      | unknownOpcode op =>
        simp only [hd, raise] at h
        exact .inr (.inl ⟨rfl, _, _, .inr rfl, by cases h; rfl⟩)
    · rw [fetchInstr, hf, Res.bind_raised] at h
      exact .inr (.inl ⟨rfl, _, n, .inl rfl, by cases h; rfl⟩)

end Sys2Proof.Machine
end

