-- ==== Sys2Proof/Laws/Meanings.lean ====
section
/-! SUPPORT. The next state of each meaning on legal operands, as an equation: the lemmas about instructions cite these
instead of unfolding a meaning. -/

namespace Sys2Proof.Machine

theorem execLdi_eq (a imm : Byte) (s : State) (ha : regByteOk a = true) :
    execLdi a imm s =
      .next ((s.setReg (regIndex a) imm).setPc (s.pc + 3)) := by
  unfold execLdi
  rw [frameR_of_ok _ _ _ ha]
  rfl

theorem execLd_eq (a b : Byte) (s : State) (ha : regByteOk a = true) (hb : regByteOk b = true) :
    execLd a b s =
      .next ((s.setReg (regIndex a) (s.cell (s.reg (regIndex b)).toNat)).setPc (s.pc + 3)) := by
  unfold execLd
  rw [frameRR_of_ok _ _ _ ha hb]
  rw [memRead_byte]
  rfl

theorem execSt_eq (a b : Byte) (s : State) (ha : regByteOk a = true) (hb : regByteOk b = true) :
    execSt a b s =
      .next ((s.setMem (s.mem.write (s.reg (regIndex a)).toNat (s.reg (regIndex b)))).setPc (s.pc + 3)) := by
  unfold execSt
  rw [frameRR_of_ok _ _ _ ha hb]
  rw [memWrite_byte]
  rfl

theorem execPrn_eq (a : Byte) (s : State) (ha : regByteOk a = true) :
    execPrn a s =
      .next ((s.emit (.num (s.reg (regIndex a)))).setPc (s.pc + 2)) := by
  unfold execPrn
  rw [frameR_of_ok _ _ _ ha]
  rfl

theorem execPra_eq (a : Byte) (s : State) (ha : regByteOk a = true) :
    execPra a s =
      .next ((s.emit (.chr (s.reg (regIndex a)))).setPc (s.pc + 2)) := by
  unfold execPra
  rw [frameR_of_ok _ _ _ ha]
  rfl

theorem execAdd_eq (a b : Byte) (s : State) (ha : regByteOk a = true) (hb : regByteOk b = true) :
    execAdd a b s =
      .next ((s.setReg (regIndex a) (aluAdd (s.reg (regIndex a)) (s.reg (regIndex b)))).setPc (s.pc + 3)) := by
  unfold execAdd
  rw [frameRR_of_ok _ _ _ ha hb]
  rfl

theorem execSub_eq (a b : Byte) (s : State) (ha : regByteOk a = true) (hb : regByteOk b = true) :
    execSub a b s =
      .next ((s.setReg (regIndex a) (aluSub (s.reg (regIndex a)) (s.reg (regIndex b)))).setPc (s.pc + 3)) := by
  unfold execSub
  rw [frameRR_of_ok _ _ _ ha hb]
  rfl

theorem execMul_eq (a b : Byte) (s : State) (ha : regByteOk a = true) (hb : regByteOk b = true) :
    execMul a b s =
      .next ((s.setReg (regIndex a) (aluMul (s.reg (regIndex a)) (s.reg (regIndex b)))).setPc (s.pc + 3)) := by
  unfold execMul
  rw [frameRR_of_ok _ _ _ ha hb]
  rfl

theorem execAnd_eq (a b : Byte) (s : State) (ha : regByteOk a = true) (hb : regByteOk b = true) :
    execAnd a b s =
      .next ((s.setReg (regIndex a) (aluAnd (s.reg (regIndex a)) (s.reg (regIndex b)))).setPc (s.pc + 3)) := by
  unfold execAnd
  rw [frameRR_of_ok _ _ _ ha hb]
  rfl

theorem execOr_eq (a b : Byte) (s : State) (ha : regByteOk a = true) (hb : regByteOk b = true) :
    execOr a b s =
      .next ((s.setReg (regIndex a) (aluOr (s.reg (regIndex a)) (s.reg (regIndex b)))).setPc (s.pc + 3)) := by
  unfold execOr
  rw [frameRR_of_ok _ _ _ ha hb]
  rfl

theorem execXor_eq (a b : Byte) (s : State) (ha : regByteOk a = true) (hb : regByteOk b = true) :
    execXor a b s =
      .next ((s.setReg (regIndex a) (aluXor (s.reg (regIndex a)) (s.reg (regIndex b)))).setPc (s.pc + 3)) := by
  unfold execXor
  rw [frameRR_of_ok _ _ _ ha hb]
  rfl

theorem execDiv_eq (a b : Byte) (s : State) (ha : regByteOk a = true) (hb : regByteOk b = true) :
    execDiv a b s =
      if (s.reg (regIndex b)).toNat = 0 then .next (s.halt .arithmeticFault s.pc.toNat)
      else .next ((s.setReg (regIndex a) (BitVec.ofNat 8 ((s.reg (regIndex a)).toNat / (s.reg (regIndex b)).toNat))).setPc (s.pc + 3)) := by
  unfold execDiv
  rw [frameRR_of_ok _ _ _ ha hb]
  unfold aluDividing aluDiv
  by_cases h : (s.reg (regIndex b)).toNat = 0
  · simp [h]
  · simp only [h, if_false]
    rfl

theorem execMod_eq (a b : Byte) (s : State) (ha : regByteOk a = true) (hb : regByteOk b = true) :
    execMod a b s =
      if (s.reg (regIndex b)).toNat = 0 then .next (s.halt .arithmeticFault s.pc.toNat)
      else .next ((s.setReg (regIndex a) (BitVec.ofNat 8 ((s.reg (regIndex a)).toNat % (s.reg (regIndex b)).toNat))).setPc (s.pc + 3)) := by
  unfold execMod
  rw [frameRR_of_ok _ _ _ ha hb]
  unfold aluDividing aluMod
  by_cases h : (s.reg (regIndex b)).toNat = 0
  · simp [h]
  · simp only [h, if_false]
    rfl

theorem execInc_eq (a : Byte) (s : State) (ha : regByteOk a = true) :
    execInc a s =
      .next ((s.setReg (regIndex a) (aluInc (s.reg (regIndex a)))).setPc (s.pc + 2)) := by
  unfold execInc
  rw [frameR_of_ok _ _ _ ha]
  rfl

theorem execDec_eq (a : Byte) (s : State) (ha : regByteOk a = true) :
    execDec a s =
      .next ((s.setReg (regIndex a) (aluDec (s.reg (regIndex a)))).setPc (s.pc + 2)) := by
  unfold execDec
  rw [frameR_of_ok _ _ _ ha]
  rfl

theorem execNot_eq (a : Byte) (s : State) (ha : regByteOk a = true) :
    execNot a s =
      .next ((s.setReg (regIndex a) (aluNot (s.reg (regIndex a)))).setPc (s.pc + 2)) := by
  unfold execNot
  rw [frameR_of_ok _ _ _ ha]
  rfl

theorem execCmp_eq (a b : Byte) (s : State) (ha : regByteOk a = true) (hb : regByteOk b = true) :
    execCmp a b s =
      .next ((s.setFl (cmpFlags (s.reg (regIndex a)) (s.reg (regIndex b)))).setPc (s.pc + 3)) := by
  unfold execCmp
  rw [frameRR_of_ok _ _ _ ha hb]
  rfl

theorem execJmp_eq (a : Byte) (s : State) (ha : regByteOk a = true) :
    execJmp a s =
      .next (s.setPc (zext9 (s.reg (regIndex a)))) := by
  unfold execJmp
  rw [frameR_of_ok _ _ _ ha]
  rfl

theorem execJeq_eq (a : Byte) (s : State) (ha : regByteOk a = true) :
    execJeq a s =
      .next (s.setPc (if condEq s.fl = true then zext9 (s.reg (regIndex a)) else s.pc + 2)) := by
  unfold execJeq
  rw [frameR_of_ok _ _ _ ha]
  unfold jumpIf
  split <;> rfl

theorem execJne_eq (a : Byte) (s : State) (ha : regByteOk a = true) :
    execJne a s =
      .next (s.setPc (if condNe s.fl = true then zext9 (s.reg (regIndex a)) else s.pc + 2)) := by
  unfold execJne
  rw [frameR_of_ok _ _ _ ha]
  unfold jumpIf
  split <;> rfl

theorem execJgt_eq (a : Byte) (s : State) (ha : regByteOk a = true) :
    execJgt a s =
      .next (s.setPc (if condGt s.fl = true then zext9 (s.reg (regIndex a)) else s.pc + 2)) := by
  unfold execJgt
  rw [frameR_of_ok _ _ _ ha]
  unfold jumpIf
  split <;> rfl

theorem execJlt_eq (a : Byte) (s : State) (ha : regByteOk a = true) :
    execJlt a s =
      .next (s.setPc (if condLt s.fl = true then zext9 (s.reg (regIndex a)) else s.pc + 2)) := by
  unfold execJlt
  rw [frameR_of_ok _ _ _ ha]
  unfold jumpIf
  split <;> rfl

theorem execCall_eq (a : Byte) (s : State) (ha : regByteOk a = true) :
    execCall a s =
      .next (((s.setReg 7 (pushAddr s)).setMem (s.mem.write (pushAddr s).toNat (returnAddress s.pc))).setPc
        (zext9 ((s.setReg 7 (pushAddr s)).reg (regIndex a)))) := by
  unfold execCall
  rw [frameR_of_ok _ _ _ ha]
  rw [push_eq]
  rfl

theorem execRet_eq (s : State) :
    execRet s =
      .next ((s.setReg 7 (mask8 (((s.reg 7).toNat : Int) + 1))).setPc (zext9 (s.cell (s.reg 7).toNat))) := by
  unfold execRet frameZ
  dsimp only
  rw [pop_eq]
  rfl

theorem execPush_eq (a : Byte) (s : State) (ha : regByteOk a = true) :
    execPush a s =
      .next (((s.setReg 7 (pushAddr s)).setMem (s.mem.write (pushAddr s).toNat (s.reg (regIndex a)))).setPc (s.pc + 2)) := by
  unfold execPush
  rw [frameR_of_ok _ _ _ ha]
  rw [push_eq]
  rfl

theorem execPop_eq (a : Byte) (s : State) (ha : regByteOk a = true) :
    execPop a s =
      .next (((s.setReg 7 (mask8 (((s.reg 7).toNat : Int) + 1))).setReg (regIndex a) (s.cell (s.reg 7).toNat)).setPc (s.pc + 2)) := by
  unfold execPop
  rw [frameR_of_ok _ _ _ ha]
  rw [pop_eq]
  rfl

theorem execHlt_eq (s : State) :
    execHlt s =
      .next ((s.halt .hlt s.pc.toNat).setPc (s.pc + 1)) := by
  rfl

end Sys2Proof.Machine
end

