-- ==== Sys2Proof/Laws/PerInstr.lean ====
section
/-! SUPPORT. Statements made per instruction. -/

/-- An encoded instruction is one opcode byte, whose two high bits count the operand bytes, and then exactly that many
operand bytes (spec/30_encoding.md R60, R65). -/
def Sys2Proof.Laws.EncodingShape.Statement (i : Sys2Proof.Instr) : Prop :=
  (Sys2Proof.encode i).head? = some (Sys2Proof.opcodeByte i.opcode) ∧
    Sys2Proof.operandCount (Sys2Proof.opcodeByte i.opcode) = i.operandBytes.length ∧
    (Sys2Proof.encode i).length = Sys2Proof.instrLength (Sys2Proof.opcodeByte i.opcode)

theorem Sys2Proof.Laws.EncodingShape.ldi (a imm : Sys2Proof.Byte) : Sys2Proof.Laws.EncodingShape.Statement (.ldi a imm) :=
  ⟨rfl, (by decide : Sys2Proof.operandCount (Sys2Proof.opcodeByte .ldi) = 2),
    (by decide : 3 = Sys2Proof.instrLength (Sys2Proof.opcodeByte .ldi))⟩

theorem Sys2Proof.Laws.EncodingShape.ld (a b : Sys2Proof.Byte) : Sys2Proof.Laws.EncodingShape.Statement (.ld a b) :=
  ⟨rfl, (by decide : Sys2Proof.operandCount (Sys2Proof.opcodeByte .ld) = 2),
    (by decide : 3 = Sys2Proof.instrLength (Sys2Proof.opcodeByte .ld))⟩

theorem Sys2Proof.Laws.EncodingShape.st (a b : Sys2Proof.Byte) : Sys2Proof.Laws.EncodingShape.Statement (.st a b) :=
  ⟨rfl, (by decide : Sys2Proof.operandCount (Sys2Proof.opcodeByte .st) = 2),
    (by decide : 3 = Sys2Proof.instrLength (Sys2Proof.opcodeByte .st))⟩

theorem Sys2Proof.Laws.EncodingShape.prn (a : Sys2Proof.Byte) : Sys2Proof.Laws.EncodingShape.Statement (.prn a) :=
  ⟨rfl, (by decide : Sys2Proof.operandCount (Sys2Proof.opcodeByte .prn) = 1),
    (by decide : 2 = Sys2Proof.instrLength (Sys2Proof.opcodeByte .prn))⟩

theorem Sys2Proof.Laws.EncodingShape.pra (a : Sys2Proof.Byte) : Sys2Proof.Laws.EncodingShape.Statement (.pra a) :=
  ⟨rfl, (by decide : Sys2Proof.operandCount (Sys2Proof.opcodeByte .pra) = 1),
    (by decide : 2 = Sys2Proof.instrLength (Sys2Proof.opcodeByte .pra))⟩

theorem Sys2Proof.Laws.EncodingShape.add (a b : Sys2Proof.Byte) : Sys2Proof.Laws.EncodingShape.Statement (.add a b) :=
  ⟨rfl, (by decide : Sys2Proof.operandCount (Sys2Proof.opcodeByte .add) = 2),
    (by decide : 3 = Sys2Proof.instrLength (Sys2Proof.opcodeByte .add))⟩

theorem Sys2Proof.Laws.EncodingShape.sub (a b : Sys2Proof.Byte) : Sys2Proof.Laws.EncodingShape.Statement (.sub a b) :=
  ⟨rfl, (by decide : Sys2Proof.operandCount (Sys2Proof.opcodeByte .sub) = 2),
    (by decide : 3 = Sys2Proof.instrLength (Sys2Proof.opcodeByte .sub))⟩

theorem Sys2Proof.Laws.EncodingShape.mul (a b : Sys2Proof.Byte) : Sys2Proof.Laws.EncodingShape.Statement (.mul a b) :=
  ⟨rfl, (by decide : Sys2Proof.operandCount (Sys2Proof.opcodeByte .mul) = 2),
    (by decide : 3 = Sys2Proof.instrLength (Sys2Proof.opcodeByte .mul))⟩

theorem Sys2Proof.Laws.EncodingShape.div (a b : Sys2Proof.Byte) : Sys2Proof.Laws.EncodingShape.Statement (.div a b) :=
  ⟨rfl, (by decide : Sys2Proof.operandCount (Sys2Proof.opcodeByte .div) = 2),
    (by decide : 3 = Sys2Proof.instrLength (Sys2Proof.opcodeByte .div))⟩

theorem Sys2Proof.Laws.EncodingShape.mod (a b : Sys2Proof.Byte) : Sys2Proof.Laws.EncodingShape.Statement (.mod a b) :=
  ⟨rfl, (by decide : Sys2Proof.operandCount (Sys2Proof.opcodeByte .mod) = 2),
    (by decide : 3 = Sys2Proof.instrLength (Sys2Proof.opcodeByte .mod))⟩

theorem Sys2Proof.Laws.EncodingShape.and (a b : Sys2Proof.Byte) : Sys2Proof.Laws.EncodingShape.Statement (.and a b) :=
  ⟨rfl, (by decide : Sys2Proof.operandCount (Sys2Proof.opcodeByte .and) = 2),
    (by decide : 3 = Sys2Proof.instrLength (Sys2Proof.opcodeByte .and))⟩

theorem Sys2Proof.Laws.EncodingShape.or (a b : Sys2Proof.Byte) : Sys2Proof.Laws.EncodingShape.Statement (.or a b) :=
  ⟨rfl, (by decide : Sys2Proof.operandCount (Sys2Proof.opcodeByte .or) = 2),
    (by decide : 3 = Sys2Proof.instrLength (Sys2Proof.opcodeByte .or))⟩

theorem Sys2Proof.Laws.EncodingShape.xor (a b : Sys2Proof.Byte) : Sys2Proof.Laws.EncodingShape.Statement (.xor a b) :=
  ⟨rfl, (by decide : Sys2Proof.operandCount (Sys2Proof.opcodeByte .xor) = 2),
    (by decide : 3 = Sys2Proof.instrLength (Sys2Proof.opcodeByte .xor))⟩

theorem Sys2Proof.Laws.EncodingShape.inc (a : Sys2Proof.Byte) : Sys2Proof.Laws.EncodingShape.Statement (.inc a) :=
  ⟨rfl, (by decide : Sys2Proof.operandCount (Sys2Proof.opcodeByte .inc) = 1),
    (by decide : 2 = Sys2Proof.instrLength (Sys2Proof.opcodeByte .inc))⟩

theorem Sys2Proof.Laws.EncodingShape.dec (a : Sys2Proof.Byte) : Sys2Proof.Laws.EncodingShape.Statement (.dec a) :=
  ⟨rfl, (by decide : Sys2Proof.operandCount (Sys2Proof.opcodeByte .dec) = 1),
    (by decide : 2 = Sys2Proof.instrLength (Sys2Proof.opcodeByte .dec))⟩

theorem Sys2Proof.Laws.EncodingShape.not (a : Sys2Proof.Byte) : Sys2Proof.Laws.EncodingShape.Statement (.not a) :=
  ⟨rfl, (by decide : Sys2Proof.operandCount (Sys2Proof.opcodeByte .not) = 1),
    (by decide : 2 = Sys2Proof.instrLength (Sys2Proof.opcodeByte .not))⟩

theorem Sys2Proof.Laws.EncodingShape.cmp (a b : Sys2Proof.Byte) : Sys2Proof.Laws.EncodingShape.Statement (.cmp a b) :=
  ⟨rfl, (by decide : Sys2Proof.operandCount (Sys2Proof.opcodeByte .cmp) = 2),
    (by decide : 3 = Sys2Proof.instrLength (Sys2Proof.opcodeByte .cmp))⟩

theorem Sys2Proof.Laws.EncodingShape.jmp (a : Sys2Proof.Byte) : Sys2Proof.Laws.EncodingShape.Statement (.jmp a) :=
  ⟨rfl, (by decide : Sys2Proof.operandCount (Sys2Proof.opcodeByte .jmp) = 1),
    (by decide : 2 = Sys2Proof.instrLength (Sys2Proof.opcodeByte .jmp))⟩

theorem Sys2Proof.Laws.EncodingShape.jeq (a : Sys2Proof.Byte) : Sys2Proof.Laws.EncodingShape.Statement (.jeq a) :=
  ⟨rfl, (by decide : Sys2Proof.operandCount (Sys2Proof.opcodeByte .jeq) = 1),
    (by decide : 2 = Sys2Proof.instrLength (Sys2Proof.opcodeByte .jeq))⟩

theorem Sys2Proof.Laws.EncodingShape.jne (a : Sys2Proof.Byte) : Sys2Proof.Laws.EncodingShape.Statement (.jne a) :=
  ⟨rfl, (by decide : Sys2Proof.operandCount (Sys2Proof.opcodeByte .jne) = 1),
    (by decide : 2 = Sys2Proof.instrLength (Sys2Proof.opcodeByte .jne))⟩

theorem Sys2Proof.Laws.EncodingShape.jgt (a : Sys2Proof.Byte) : Sys2Proof.Laws.EncodingShape.Statement (.jgt a) :=
  ⟨rfl, (by decide : Sys2Proof.operandCount (Sys2Proof.opcodeByte .jgt) = 1),
    (by decide : 2 = Sys2Proof.instrLength (Sys2Proof.opcodeByte .jgt))⟩

theorem Sys2Proof.Laws.EncodingShape.jlt (a : Sys2Proof.Byte) : Sys2Proof.Laws.EncodingShape.Statement (.jlt a) :=
  ⟨rfl, (by decide : Sys2Proof.operandCount (Sys2Proof.opcodeByte .jlt) = 1),
    (by decide : 2 = Sys2Proof.instrLength (Sys2Proof.opcodeByte .jlt))⟩

theorem Sys2Proof.Laws.EncodingShape.call (a : Sys2Proof.Byte) : Sys2Proof.Laws.EncodingShape.Statement (.call a) :=
  ⟨rfl, (by decide : Sys2Proof.operandCount (Sys2Proof.opcodeByte .call) = 1),
    (by decide : 2 = Sys2Proof.instrLength (Sys2Proof.opcodeByte .call))⟩

theorem Sys2Proof.Laws.EncodingShape.ret : Sys2Proof.Laws.EncodingShape.Statement .ret :=
  ⟨rfl, (by decide : Sys2Proof.operandCount (Sys2Proof.opcodeByte .ret) = 0),
    (by decide : 1 = Sys2Proof.instrLength (Sys2Proof.opcodeByte .ret))⟩

theorem Sys2Proof.Laws.EncodingShape.push (a : Sys2Proof.Byte) : Sys2Proof.Laws.EncodingShape.Statement (.push a) :=
  ⟨rfl, (by decide : Sys2Proof.operandCount (Sys2Proof.opcodeByte .push) = 1),
    (by decide : 2 = Sys2Proof.instrLength (Sys2Proof.opcodeByte .push))⟩

theorem Sys2Proof.Laws.EncodingShape.pop (a : Sys2Proof.Byte) : Sys2Proof.Laws.EncodingShape.Statement (.pop a) :=
  ⟨rfl, (by decide : Sys2Proof.operandCount (Sys2Proof.opcodeByte .pop) = 1),
    (by decide : 2 = Sys2Proof.instrLength (Sys2Proof.opcodeByte .pop))⟩

theorem Sys2Proof.Laws.EncodingShape.hlt : Sys2Proof.Laws.EncodingShape.Statement .hlt :=
  ⟨rfl, (by decide : Sys2Proof.operandCount (Sys2Proof.opcodeByte .hlt) = 0),
    (by decide : 1 = Sys2Proof.instrLength (Sys2Proof.opcodeByte .hlt))⟩
end

