-- ==== Sys2Proof/Machine/Spelling.lean ====
section
/-! DEFINITION. How the spec spells an instruction (spec/30_encoding.md R72, 00_scope.md R14, decision D19). The hardware
has no assembler (R71); the spelling has no effect on a step. -/

namespace Sys2Proof.Machine

/-- The mnemonic in capitals (R66, R72). -/
def mnemonic : Opcode → String
  | .ldi => "LDI"
  | .ld => "LD"
  | .st => "ST"
  | .prn => "PRN"
  | .pra => "PRA"
  | .add => "ADD"
  | .sub => "SUB"
  | .mul => "MUL"
  | .div => "DIV"
  | .mod => "MOD"
  | .and => "AND"
  | .or => "OR"
  | .xor => "XOR"
  | .inc => "INC"
  | .dec => "DEC"
  | .not => "NOT"
  | .cmp => "CMP"
  | .jmp => "JMP"
  | .jeq => "JEQ"
  | .jne => "JNE"
  | .jgt => "JGT"
  | .jlt => "JLT"
  | .call => "CALL"
  | .ret => "RET"
  | .push => "PUSH"
  | .pop => "POP"
  | .hlt => "HLT"

/-- A register operand, `R0` .. `R7`; the immediate in decimal (R72). -/
def spellReg (o : Byte) : List Char := 'R' :: decimalChars o

/-- An instruction as text: mnemonic, a space, the operands separated by a comma (R72). -/
def spell (i : Instr) : List Char :=
  (mnemonic i.opcode).toList ++
    match i.operandBytes, opcodeFormat i.opcode with
    | a :: imm :: _, .ri => ' ' :: spellReg a ++ ',' :: decimalChars imm
    | a :: b :: _, .rr => ' ' :: spellReg a ++ ',' :: spellReg b
    | a :: _, .r => ' ' :: spellReg a
    | _, _ => []

end Sys2Proof.Machine
end

