-- ==== Sys2Proof/Tests/Slice0.lean ====
section
/-! SUPPORT. Tests of the model on the spec's own vectors (spec/95_test_vectors.md) and examples, the smoke test of
well-formedness, the decoding of a written-out word for every row, and a witness for the hypotheses of each obligation. -/

namespace Sys2Proof.Tests

open Sys2Proof.Machine

/-- The state of an outcome, when it is a next state. -/
def nextOf (o : Host.Outcome State Fault Refusal) : Option State :=
  match o with
  | .next t => some t
  | .fault _ => none
  | .refused _ => none

/-- The memory with bytes from an address on. -/
def withBytes (m : Memory) (a : Nat) : List Byte → Memory
  | [] => m
  | v :: vs => withBytes (m.write a v) (a + 1) vs

/-- Reset, with bytes at `pc` and the program counter there. -/
def codeAt (pc : Nat) (bs : List Byte) : State :=
  (State.reset.setMem (withBytes [] pc bs)).setPc (BitVec.ofNat 9 pc)

/-- One byte of memory set. -/
def poke (s : State) (a : Nat) (v : Byte) : State := s.setMem (s.mem.write a v)

/-- One step, then a look at the next state. -/
def after {α : Type} (s : State) (look : State → α) : Option α := (nextOf (step s)).map look

/-- The halt record of a state. -/
def haltRecord (t : State) : Run × Cause × Nat × Nat := (t.run, t.cause, t.info, t.pc.toNat)

/-! ### Well-formedness (R64) -/

theorem test_wf_refuses_first_operand : Instr.wf (.prn 8) = false := by decide
theorem test_wf_refuses_second_operand : Instr.wf (.add 7 255) = false := by decide
theorem test_wf_refuses_ldi_register : Instr.wf (.ldi 8 0) = false := by decide
theorem test_wf_accepts_any_immediate : Instr.wf (.ldi 7 255) = true := by decide

/-! ### Decoding: a word of every row, written out from its encoding line -/

theorem test_decode_ldi : decode 0b10011001 0b00000011 0b11111111 = .instr (.ldi 3 255) := by decide
theorem test_decode_ld : decode 0b10011000 0b00000001 0b00000110 = .instr (.ld 1 6) := by decide
theorem test_decode_st : decode 0b10011010 0b00000100 0b00000000 = .instr (.st 4 0) := by decide
theorem test_decode_prn : decode 0b01000011 0b00000111 0b11111111 = .instr (.prn 7) := by decide
theorem test_decode_pra : decode 0b01000010 0b00000010 0b00000000 = .instr (.pra 2) := by decide
theorem test_decode_add : decode 0b10101000 0b00000001 0b00000010 = .instr (.add 1 2) := by decide
theorem test_decode_sub : decode 0b10101001 0b00000001 0b00000010 = .instr (.sub 1 2) := by decide
theorem test_decode_mul : decode 0b10101010 0b00000101 0b00000011 = .instr (.mul 5 3) := by decide
theorem test_decode_div : decode 0b10101011 0b00000110 0b00000001 = .instr (.div 6 1) := by decide
theorem test_decode_mod : decode 0b10101100 0b00000000 0b00000111 = .instr (.mod 0 7) := by decide
theorem test_decode_and : decode 0b10110011 0b00000010 0b00000100 = .instr (.and 2 4) := by decide
theorem test_decode_or : decode 0b10110001 0b00000011 0b00000101 = .instr (.or 3 5) := by decide
theorem test_decode_xor : decode 0b10110010 0b00000110 0b00000101 = .instr (.xor 6 5) := by decide
theorem test_decode_inc : decode 0b01111000 0b00000001 0b00000000 = .instr (.inc 1) := by decide
theorem test_decode_dec : decode 0b01111001 0b00000010 0b00000000 = .instr (.dec 2) := by decide
theorem test_decode_not : decode 0b01110000 0b00000011 0b00000000 = .instr (.not 3) := by decide
theorem test_decode_cmp : decode 0b10100000 0b00000100 0b00000001 = .instr (.cmp 4 1) := by decide
theorem test_decode_jmp : decode 0b01010000 0b00000010 0b00000000 = .instr (.jmp 2) := by decide
theorem test_decode_jeq : decode 0b01010001 0b00000010 0b00000000 = .instr (.jeq 2) := by decide
theorem test_decode_jne : decode 0b01010010 0b00000011 0b00000000 = .instr (.jne 3) := by decide
theorem test_decode_jgt : decode 0b01010100 0b00000100 0b00000000 = .instr (.jgt 4) := by decide
theorem test_decode_jlt : decode 0b01010011 0b00000101 0b00000000 = .instr (.jlt 5) := by decide
theorem test_decode_call : decode 0b01001000 0b00000001 0b00000000 = .instr (.call 1) := by decide
theorem test_decode_ret : decode 0b00001001 0b10101010 0b01010101 = .instr .ret := by decide
theorem test_decode_push : decode 0b01001101 0b00000110 0b00000000 = .instr (.push 6) := by decide
theorem test_decode_pop : decode 0b01001100 0b00000111 0b00000000 = .instr (.pop 7) := by decide
theorem test_decode_hlt : decode 0b00000001 0b00000000 0b00000000 = .instr .hlt := by decide

/-- R68: the interrupt opcodes and 0x00 are unknown. -/
theorem test_decode_unknown :
    decode 0x00 0 0 = .unknownOpcode 0 ∧ decode 0x4A 0 0 = .unknownOpcode 0x4A ∧ decode 0x0B 0 0 = .unknownOpcode 0x0B := by
  decide

/-- The table's numbering: byte 0 in bits 7:0, byte 1 in bits 15:8, byte 2 in bits 23:16. -/
theorem test_decodeTableWord : decodeTableWord 24 0xFF0399 = some (.ldi 3 255) := by decide
theorem test_decodeTableWord_short : decodeTableWord 8 0xFFFF43 = some (.prn 0) := by decide
theorem test_withFetchWord_runs :
    after (State.reset.withFetchWord 24 0xFF0399) (fun t => (t.reg 3, t.pc)) = some (255, 3) := by decide
/-- R72 and the source's scenario S7: the spelling of an instruction. -/
theorem test_spell : spell (.ldi 0 8) = "LDI R0,8".toList ∧ spell (.mul 0 1) = "MUL R0,R1".toList ∧
    spell (.prn 0) = "PRN R0".toList ∧ spell .hlt = "HLT".toList := by decide

/-! ### Vectors, one step each (spec/95_test_vectors.md, Part 2) -/

theorem test_ldi_V1 : after (codeAt 0 [0x99, 3, 0xFF]) (fun t => (t.reg 3, t.pc)) = some (0xFF, 3) := by decide
theorem test_ldi_V76 : after (codeAt 0xFD [0x99, 0, 1]) (fun t => (t.reg 0, t.pc, t.run)) = some (1, 256, .running) := by
  decide
theorem test_ld_V5 :
    after (poke ((codeAt 0 [0x98, 0, 0]).setReg 0 0x20) 0x20 0x5A) (fun t => (t.reg 0, t.pc)) = some (0x5A, 3) := by decide
theorem test_ld_V6 : after ((codeAt 0x10 [0x98, 1, 0]).setReg 0 0x10) (fun t => (t.reg 1, t.pc)) = some (0x98, 0x13) := by
  decide
theorem test_st_V7 :
    after (((codeAt 0 [0x9A, 0, 1]).setReg 0 0x80).setReg 1 0x2A) (fun t => (t.cell 0x80, t.pc)) = some (0x2A, 3) := by
  decide
theorem test_st_V9 :
    after (((codeAt 0x10 [0x9A, 0, 1]).setReg 0 0x10).setReg 1 1) (fun t => (t.cell 0x10, t.pc)) = some (1, 0x13) := by
  decide
theorem test_prn_V11 : after ((codeAt 0 [0x43, 0, 0xFF]).setReg 0 1) (fun t => (t.out, t.pc)) = some ([.num 1], 2) := by
  decide
theorem test_prn_V13 : after (codeAt 0 [0x43, 7]) (fun t => t.out.flatMap renderEvent) = some ['2', '4', '4'] := by decide
theorem test_pra_V14 : after ((codeAt 0 [0x42, 0]).setReg 0 0x48) (fun t => (t.out, t.pc)) = some ([.chr 0x48], 2) := by
  decide
theorem test_pra_V15 : after ((codeAt 0 [0x42, 0]).setReg 0 0xC8) (fun t => t.out) = some [.chr 0xC8] := by decide

/-- `op R0,R1` at 0 with the two register values. -/
def rrTest (op a b : Byte) : State := ((codeAt 0 [op, 0, 1]).setReg 0 a).setReg 1 b

theorem test_add_V16 : after (rrTest 0xA8 200 100) (fun t => (t.reg 0, t.reg 1, t.pc)) = some (44, 100, 3) := by decide
theorem test_add_V32 : after ((codeAt 0 [0xA8, 0, 0]).setReg 0 0x90) (fun t => t.reg 0) = some 0x20 := by decide
theorem test_sub_V19 : after (rrTest 0xA9 5 10) (fun t => (t.reg 0, t.pc)) = some (251, 3) := by decide
theorem test_sub_V21 : after (rrTest 0xA9 10 5) (fun t => t.reg 0) = some 5 := by decide
theorem test_mul_V22 : after (rrTest 0xAA 8 9) (fun t => (t.reg 0, t.pc)) = some (72, 3) := by decide
theorem test_mul_V22b : after (rrTest 0xAA 0xFF 0xFF) (fun t => t.reg 0) = some 1 := by decide
theorem test_div_V25 : after (rrTest 0xAB 200 7) (fun t => (t.reg 0, t.pc)) = some (28, 3) := by decide
theorem test_div_V23 : after (rrTest 0xAB 7 0) (fun t => (t.reg 0, haltRecord t)) =
    some (7, .halted, .arithmeticFault, 0, 0) := by decide
theorem test_mod_V27 : after (rrTest 0xAC 200 7) (fun t => (t.reg 0, t.pc)) = some (4, 3) := by decide
theorem test_mod_V28 : after (rrTest 0xAC 7 0) (fun t => (t.reg 0, haltRecord t)) =
    some (7, .halted, .arithmeticFault, 0, 0) := by decide
theorem test_and_V29 : after (rrTest 0xB3 0xCC 0xAA) (fun t => (t.reg 0, t.pc)) = some (0x88, 3) := by decide
theorem test_or_V30 : after (rrTest 0xB1 0xCC 0xAA) (fun t => (t.reg 0, t.pc)) = some (0xEE, 3) := by decide
theorem test_xor_V31 : after (rrTest 0xB2 0xCC 0xAA) (fun t => (t.reg 0, t.pc)) = some (0x66, 3) := by decide
theorem test_inc_V39a : after ((codeAt 0 [0x78, 0]).setReg 0 0xFF) (fun t => (t.reg 0, t.pc)) = some (0, 2) := by decide
theorem test_dec_V39c : after (codeAt 0 [0x79, 0]) (fun t => (t.reg 0, t.pc)) = some (0xFF, 2) := by decide
theorem test_not_V39e : after ((codeAt 0 [0x70, 0]).setReg 0 0x0F) (fun t => (t.reg 0, t.pc)) = some (0xF0, 2) := by decide
theorem test_cmp_V43 : after (rrTest 0xA0 0x80 0x7F) (fun t => (t.fl, t.pc)) =
    some ({ e := false, l := false, g := true }, 3) := by decide
/-- V40, shown as a byte `00000LGE`. -/
theorem test_cmp_V40 : after (rrTest 0xA0 3 5) (fun t => flagsByte t.fl) = some 0b00000100 := by decide

/-- A branch `op R2` at 0x10 with target 0x20 and the flags (E, L, G). -/
def branchTest (op : Byte) (e l g : Bool) : Option PcWord :=
  after (((codeAt 0x10 [op, 2]).setReg 2 0x20).setFl { e := e, l := l, g := g }) fun t => t.pc

/-- The row of the vector table V50 to V54: the flags all clear, then E, L, G. -/
def branchRow (op : Byte) : List (Option PcWord) :=
  [branchTest op false false false, branchTest op true false false, branchTest op false true false,
   branchTest op false false true]

theorem test_jmp_V50 : branchRow 0x50 = [some 0x20, some 0x20, some 0x20, some 0x20] := by decide
theorem test_jmp_V55 : after ((codeAt 0x10 [0x50, 2]).setReg 2 0x10) (fun t => (t.pc, t.run)) = some (0x10, .running) := by
  decide
theorem test_jeq_V51 : branchRow 0x51 = [some 0x12, some 0x20, some 0x12, some 0x12] := by decide
theorem test_jne_V52 : branchRow 0x52 = [some 0x20, some 0x12, some 0x20, some 0x20] := by decide
theorem test_jgt_V53 : branchRow 0x54 = [some 0x12, some 0x12, some 0x12, some 0x20] := by decide
theorem test_jlt_V54 : branchRow 0x53 = [some 0x12, some 0x12, some 0x20, some 0x12] := by decide
theorem test_jeq_V56 : after (codeAt 0x10 [0x51, 8]) haltRecord = some (.halted, .reservedOperand, 8, 0x10) := by decide

theorem test_push_V61 : after (codeAt 0 [0x4D, 7]) (fun t => (t.reg 7, t.cell 0xF3, t.pc)) = some (0xF3, 0xF4, 2) := by
  decide
theorem test_push_V62 : after (((codeAt 0x10 [0x4D, 0]).setReg 0 0xAB).setReg 7 0)
    (fun t => (t.reg 7, t.cell 0xFF, t.pc)) = some (0xFF, 0xAB, 0x12) := by decide
theorem test_pop_V64 : after (poke ((codeAt 0 [0x4C, 7]).setReg 7 0xF3) 0xF3 0x40) (fun t => (t.reg 7, t.pc)) =
    some (0x40, 2) := by decide
theorem test_pop_V65 : after (poke ((codeAt 0 [0x4C, 1]).setReg 7 0xFF) 0xFF 0x77)
    (fun t => (t.reg 1, t.reg 7, t.pc)) = some (0x77, 0, 2) := by decide
theorem test_call_V68 : after (codeAt 6 [0x48, 7]) (fun t => (t.reg 7, t.cell 0xF3, t.pc)) = some (0xF3, 8, 0xF3) := by
  decide
theorem test_call_V69 : after ((codeAt 0xFD [0x48, 1]).setReg 1 0x20) (fun t => (t.reg 7, t.cell 0xF3, t.pc)) =
    some (0xF3, 0xFF, 0x20) := by decide
theorem test_ret_V70 : after (poke ((codeAt 0x13 [0x09]).setReg 7 0xF3) 0xF3 8) (fun t => (t.pc, t.reg 7)) =
    some (8, 0xF4) := by decide

theorem test_hlt_V71 : after (codeAt 0x0B [0x01]) haltRecord = some (.halted, .hlt, 0x0B, 0x0C) := by decide
theorem test_hlt_V72 : after (codeAt 0xFD [0x01]) haltRecord = some (.halted, .hlt, 0xFD, 0xFE) := by decide
theorem test_fetch_V73 : after (codeAt 0xFE [0x01]) haltRecord = some (.halted, .addressFault, 256, 0xFE) := by decide
theorem test_fetch_V74 : after (codeAt 0xFF [0x01]) haltRecord = some (.halted, .addressFault, 256, 0xFF) := by decide
theorem test_fetch_V75 : after (codeAt 256 []) haltRecord = some (.halted, .addressFault, 256, 256) := by decide
theorem test_fetch_V77 : after (codeAt 0xFE [0xFF]) haltRecord = some (.halted, .addressFault, 256, 0xFE) := by decide
theorem test_unknown_V80 : after (codeAt 0x10 []) haltRecord = some (.halted, .unknownOpcode, 0, 0x10) := by decide
theorem test_unknown_V83 : after (codeAt 0x10 [0xC0]) haltRecord = some (.halted, .unknownOpcode, 0xC0, 0x10) := by decide
theorem test_reserved_V84 : after (codeAt 0 [0x99, 8, 1]) haltRecord = some (.halted, .reservedOperand, 8, 0) := by decide
theorem test_reserved_V85 : after (codeAt 0 [0xAB, 0, 9]) haltRecord = some (.halted, .reservedOperand, 9, 0) := by decide
theorem test_reserved_V86 : after (codeAt 0 [0xAB, 8, 9]) haltRecord = some (.halted, .reservedOperand, 8, 0) := by decide
/-- R90: a step request in Halted. -/
theorem test_halted_step : after ((codeAt 0 [0x99, 3, 0xFF]).halt .hlt 5) (fun t => t) =
    some ((codeAt 0 [0x99, 3, 0xFF]).halt .hlt 5) := by decide
/-- R194, R195: a loader line, a skipped line and a short line. -/
theorem test_parseProgram :
    parseProgram 0 ["10011001 # LDI R0,8".toList, "# comment".toList, [], "00001000".toList] = .ok [0x99, 8] := by rfl
theorem test_parseProgram_short :
    parseProgram 0 ["00000000".toList, "0101".toList] = .error (.invalidProgramFormat 1) := by rfl

/-! ### Witnesses: a state and operands that meet the hypotheses of each obligation -/

theorem witness_EncodeOfDecodedBytesIsIdentity : decodeBytes [0x99, 3, 0xFF, 7] = .instr (.ldi 3 255) [7] := by decide
theorem witness_LatchedBytesDecodeToEncodedInstruction : encode .hlt ++ [5, 6] = [0x01, 5, 6] := by decide
theorem witness_OpcodeTableIsSound : opcodeByte .ldi = opcodeByte .ldi := rfl
theorem witness_UnknownOpcodeBytesAreRefused : operandCount 0xC0 = 3 ∧ operandCount 0xFF = 3 := by decide
theorem witness_StepRunsDecodedInstruction : fetches (codeAt 0xFD [0x99, 0, 1]) (.ldi 0 1) := by decide
theorem witness_FetchAtTopOfMemoryFaults :
    ∀ pc ∈ [254, 255, 256, 257], (codeAt pc []).run = .running ∧ Config.memSize - 2 ≤ (codeAt pc []).pc.toNat := by decide
theorem witness_UnknownOpcodeHalts : State.reset.run = .running ∧ State.reset.pc.toNat + 2 < Config.memSize ∧
    decodeOpcode (State.reset.cell State.reset.pc.toNat) = none := by decide
theorem witness_ReservedOperandHalts :
    (Instr.div 8 9).regOperands.find? (fun x => !regByteOk x) = some 8 ∧
    (Instr.div 7 9).regOperands.find? (fun x => !regByteOk x) = some 9 ∧
    (Instr.ldi 255 9).regOperands.find? (fun x => !regByteOk x) = some 255 := by decide
theorem witness_HaltedIsTerminal : (State.reset.halt .hlt 0).run = .halted := rfl
theorem witness_EveryStepKeepsInv : (codeAt 0 [0x99, 3, 0xFF]).Inv ∧ ∃ t, step (codeAt 0 [0x99, 3, 0xFF]) = .next t :=
  ⟨by decide, _, rfl⟩
theorem witness_FaultChangesNothingElse : State.reset.run = .running ∧
    ∃ t, step State.reset = .next t ∧ t.run = .halted ∧ isFault t.cause = true := ⟨rfl, _, rfl, rfl, rfl⟩
theorem witness_OnlyHltAndFaultsHalt_hlt : fetches (codeAt 0xFD [0x01]) .hlt := by decide
theorem witness_OnlyHltAndFaultsHalt_halting : (codeAt 0 [0x01]).run = .running ∧
    ∃ t, step (codeAt 0 [0x01]) = .next t ∧ t.run = .halted := ⟨rfl, _, rfl, rfl⟩
theorem witness_OnlyHltAndFaultsHalt_loop : fetches ((codeAt 0x10 [0x50, 2]).setReg 2 0x10) (.jmp 2) ∧
    regByteOk 2 = true ∧
    zext9 (((codeAt 0x10 [0x50, 2]).setReg 2 0x10).reg (regIndex 2)) = ((codeAt 0x10 [0x50, 2]).setReg 2 0x10).pc := by
  decide
theorem witness_AdvanceNeverWraps : fetches (codeAt 0xFD [0x99, 0, 1]) (.ldi 0 1) ∧
    opcodePcControl (Instr.ldi 0 1).opcode = .no ∧
    ∃ t, step (codeAt 0xFD [0x99, 0, 1]) = .next t ∧ t.run = .running := ⟨by decide, rfl, _, rfl, rfl⟩
theorem witness_MemoryReadsBackWhatWasWritten : 255 < Config.memSize ∧ 0 < Config.memSize ∧ 0 ≠ 255 ∧
    ∀ c ∈ State.reset.mem, c.1 ≠ 255 := by decide
theorem witness_OutOfBoundsAccessFaults : Config.memSize ≤ 256 ∧
    memWrite (0xFF : Byte).toNat 1 State.reset = .ok () (State.reset.setMem [(255, 1)]) := ⟨by decide, rfl⟩
theorem witness_RegisterReadsBackWhatWasWritten : (0 : Reg) ≠ 7 := by decide
/-! The statements whose only hypotheses are legal register operands: the operand at both ends of its range. -/

theorem witness_LdiLoadsImmediate : regByteOk 0 = true ∧ regByteOk 7 = true := by decide
theorem witness_LdLoadsFromMemory : regByteOk 0 = true ∧ regByteOk 7 = true := by decide
theorem witness_StStoresToMemory : regByteOk 0 = true ∧ regByteOk 7 = true := by decide
theorem witness_PrnAndPraEmitOneEvent : regByteOk 0 = true ∧ regByteOk 7 = true := by decide
theorem witness_AddSubMulWrapModulo256 : regByteOk 0 = true ∧ regByteOk 7 = true := by decide
theorem witness_AndOrXorWorkBitwise : regByteOk 0 = true ∧ regByteOk 7 = true := by decide
theorem witness_IncDecNotOfOneRegister : regByteOk 0 = true ∧ regByteOk 7 = true := by decide
theorem witness_CmpSetsExactlyOneFlag : regByteOk 0 = true ∧ regByteOk 7 = true := by decide
theorem witness_JmpGoesToRegister : regByteOk 0 = true ∧ regByteOk 7 = true := by decide
theorem witness_PushStoresRegister : regByteOk 0 = true ∧ regByteOk 7 = true := by decide
theorem witness_PopLoadsRegister : regByteOk 0 = true ∧ regByteOk 7 = true := by decide
theorem witness_PushThenPopRoundTrips : regByteOk 0 = true ∧ regByteOk 7 = true := by decide
theorem witness_FlagBranchesFollowTheirFlag : regByteOk 7 = true ∧
    ∀ b ∈ [false, true], (State.reset.setFl { e := b, l := b, g := b }).fl.e = b := by decide
theorem witness_JneFollowsClearEqual : regByteOk 7 = true ∧ State.reset.fl.e = false ∧
    (State.reset.setFl { e := true, l := false, g := false }).fl.e = true := by decide

/-- `ST R0,R1` at 0x10 over its own opcode byte. -/
def storeOver : State := ((codeAt 0x10 [0x9A, 0, 1]).setReg 0 0x10).setReg 1 1
theorem witness_StoreOverCodeIsSeenByLaterFetch : fetches storeOver (.st 0 1) ∧ regByteOk 0 = true ∧ regByteOk 1 = true ∧
    ∃ t, step storeOver = .next t ∧ (t.setPc 0x10).mem = t.mem ∧
      (t.setPc 0x10).pc = zext9 (storeOver.reg (regIndex 0)) ∧ (t.setPc 0x10).pc.toNat + 2 < Config.memSize :=
  ⟨by decide, rfl, rfl, _, rfl, rfl, rfl, by decide⟩
theorem witness_EventsRenderAsText : (127 : Byte).toNat < 128 := by decide
theorem witness_DivAndModByNonzero : regByteOk 0 = true ∧ regByteOk 7 = true ∧ State.reset.reg (regIndex 7) ≠ 0 := by decide
theorem witness_DivAndModByZeroFault : regByteOk 7 = true ∧ regByteOk 0 = true ∧ State.reset.reg (regIndex 0) = 0 := by
  decide
theorem witness_CallPushesReturnAddress : regByteOk 7 = true ∧ regByteOk 1 = true ∧
    (codeAt 0xFD [0x48, 1]).pc.toNat + 2 < Config.memSize := by decide
theorem witness_RetReturnsAfterCall : regByteOk 1 = true ∧ (codeAt 0xFD [0x48, 1]).pc.toNat + 2 < Config.memSize ∧
    ∃ t u : State, exec (.call 1) (codeAt 0xFD [0x48, 1]) = .next t ∧ u.reg 7 = t.reg 7 ∧
      u.cell (t.reg 7).toNat = t.cell (t.reg 7).toNat := ⟨rfl, by decide, _, _, rfl, rfl, rfl⟩
theorem witness_FrameOfRegisterWriters : regByteOk 0 = true ∧ regByteOk 7 = true ∧
    (((Instr.div 0 7 = .div 0 7 ∨ Instr.div 0 7 = .mod 0 7) ∧ State.reset.reg (regIndex 7) ≠ 0) ∧
      ∃ t, exec (.div 0 7) State.reset = .next t) ∧
    ∃ t, exec (.not 0) State.reset = .next t := ⟨rfl, rfl, ⟨⟨.inl rfl, by decide⟩, _, rfl⟩, _, rfl⟩
theorem witness_FrameOfLdi : regByteOk 7 = true ∧ ∃ t, exec (.ldi 7 255) State.reset = .next t := ⟨rfl, _, rfl⟩
theorem witness_FrameOfInstructionsWithoutDestination : regByteOk 7 = true ∧ regByteOk 0 = true ∧
    (∃ t, exec (.cmp 7 0) State.reset = .next t) ∧ ∃ t, exec .hlt State.reset = .next t :=
  ⟨rfl, rfl, ⟨_, rfl⟩, _, rfl⟩
theorem witness_FrameOfStores : regByteOk 7 = true ∧ regByteOk 0 = true ∧ (∃ t, exec (.st 7 0) State.reset = .next t) ∧
    (∃ t, exec (.push 7) State.reset = .next t) ∧ ∃ t, exec (.call 7) State.reset = .next t :=
  ⟨rfl, rfl, ⟨_, rfl⟩, ⟨_, rfl⟩, _, rfl⟩
theorem witness_FrameOfPops : regByteOk 7 = true ∧ (∃ t, exec .ret State.reset = .next t) ∧
    ∃ t, exec (.pop 7) State.reset = .next t := ⟨rfl, ⟨_, rfl⟩, _, rfl⟩
theorem witness_OnlyCmpWritesFlags :
    ∃ t, step (rrTest 0xA0 3 5) = .next t ∧ t.fl ≠ (rrTest 0xA0 3 5).fl := ⟨_, rfl, by decide⟩
theorem witness_OnlyBranchesReadFlags : (Instr.push 7).opcode ∉ [Opcode.jeq, .jne, .jgt, .jlt, .cmp] ∧
    ∃ t, exec (.push 7) State.reset = .next t := ⟨by decide, _, rfl⟩
theorem witness_OnlyStoresWriteMemory_store : fetches storeOver (.st 0 1) ∧
    ∃ t, step storeOver = .next t ∧ t.cell 0x10 ≠ storeOver.cell 0x10 := ⟨by decide, _, rfl, by decide⟩
theorem witness_OnlyStoresWriteMemory_push : fetches (codeAt 0 [0x4D, 7]) (.push 7) ∧
    ∃ t, step (codeAt 0 [0x4D, 7]) = .next t ∧
      t.cell (pushAddr (codeAt 0 [0x4D, 7])).toNat ≠ (codeAt 0 [0x4D, 7]).cell 0xF3 := ⟨by decide, _, rfl, by decide⟩
theorem witness_OnlyStoresWriteMemory_call : fetches (codeAt 0xFD [0x48, 1]) (.call 1) ∧
    ∃ t, step (codeAt 0xFD [0x48, 1]) = .next t ∧
      t.cell (pushAddr (codeAt 0xFD [0x48, 1])).toNat ≠ (codeAt 0xFD [0x48, 1]).cell 0xF3 := ⟨by decide, _, rfl, by decide⟩
theorem witness_OnlyStoresWriteMemory_other : (∀ i, fetches (codeAt 256 []) i → i.opcode ∉ [Opcode.st, .push, .call]) ∧
    ∃ t, step (codeAt 256 []) = .next t := ⟨fun _ h => absurd h.2.1 (by decide), _, rfl⟩
theorem witness_OutputOnlyGrowsByPrnAndPra : ∃ t, step (codeAt 0 [0x43, 7]) = .next t ∧ t.out ≠ [] := ⟨_, rfl, by decide⟩
theorem witness_OutputIsNeverRead : ∃ t, step (codeAt 0 [0x43, 7]) = .next t := ⟨_, rfl⟩
theorem witness_LoaderPlacesProgram : (List.replicate 256 (1 : Byte)).length ≤ Config.memSize ∧
    [(0x01 : Byte)][0]? = some 0x01 ∧ Config.memSize < (List.replicate 257 (1 : Byte)).length := by
  rw [List.length_replicate, List.length_replicate]; decide
theorem witness_ProgramLinesParse : lineSignificant ['1', '0', '1', '0', '1', '0', '1'] = true ∧
    ['1', '0', '1', '0', '1', '0', '1'].length < 8 ∧
    lineSignificant ['1', '0', '1', '0', '1', '0', '1', ' ', '0'] = true ∧
    ∃ c ∈ ['1', '0', '1', '0', '1', '0', '1', ' ', '0'].take 8, c ≠ '0' ∧ c ≠ '1' :=
  ⟨by decide, by decide, by decide, ' ', by simp, by decide⟩
theorem witness_DriverStopsAtHalted : (drive 1 State.reset).run = .halted := by decide

end Sys2Proof.Tests
end

section
/-! SUPPORT. Reset, `raise`, output and the unconditional jump (spec/00_scope.md). -/

namespace Sys2Proof.Machine

/-! ### The reset state, read through the accessors -/

/-- R6, R34: only the stack pointer has a reset value other than zero. -/
theorem State.reg_reset (r : Reg) : State.reset.reg r = if r = 7 then 0xF4 else 0 := by
  decide +revert

/-- R34 (decision D11, log 7): no cell is listed after reset, so every address reads as the initial contents. -/
@[simp] theorem State.cell_reset (x : Nat) : State.reset.cell x = memInit x := Memory.read_nil x

/-! ### The arms of `exec` (R85) -/

theorem exec_prn (a : Byte) (s : State) : exec (.prn a) s = execPrn a s := rfl

theorem exec_pra (a : Byte) (s : State) : exec (.pra a) s = execPra a s := rfl

theorem exec_jmp (a : Byte) (s : State) : exec (.jmp a) s = execJmp a s := rfl

/-! ### The obligations -/

/-- Settles O15: the registers through `State.reg_reset`, the cells through `State.cell_reset`; every other field is
written out in `State.reset`. -/
theorem resetValues : Obligations.ResetValues := by
  have hregs : ∀ r : Reg, r ≠ 7 → State.reset.reg r = 0 := fun r hr => by rw [State.reg_reset, if_neg hr]
  have hsp : State.reset.reg 7 = 0xF4 := by rw [State.reg_reset, if_pos rfl]
  exact ⟨hregs, hsp, rfl, rfl, rfl, rfl, rfl, rfl, State.cell_reset⟩

/-- Settles O19: a raise skips what is bound after it, and the end of the step keeps the halted state without an
advance. -/
theorem raiseEndsTheStep : Obligations.RaiseEndsTheStep := by
  intro c info s α k row pc0
  calc finish row pc0 ((raise c info s : Res α).bind k)
    _ = finish row pc0 (raise c info s) := by rw [Res.bind_raise]
    _ = .next (s.halt c info) := finish_raise row pc0 c info s

/-- Settles O29, from the next states of PRN and PRA on a legal operand. -/
theorem prnAndPraEmitOneEvent : Obligations.PrnAndPraEmitOneEvent := by
  intro s a ha
  have hprn := (exec_prn a s).trans (execPrn_eq a s ha)
  have hpra := (exec_pra a s).trans (execPra_eq a s ha)
  exact ⟨⟨_, hprn, by simp, by simp⟩, ⟨_, hpra, by simp, by simp⟩⟩

/-- Settles O37: JMP sets `pc` to the zero-extended register, whose number is the register's own. -/
theorem jmpGoesToRegister : Obligations.JmpGoesToRegister := by
  intro s a ha
  have hjmp := (exec_jmp a s).trans (execJmp_eq a s ha)
  exact ⟨_, hjmp, by simp⟩

end Sys2Proof.Machine
end

section
/-! SUPPORT. Where `pc` goes and what every step keeps (spec/10_state.md R24 to R29, R35; 40_step_cycle.md R88). -/

namespace Sys2Proof.Machine

/-! ### The advance of `pc` -/

theorem rowLength_le_three (row : Opcode) : rowLength row ≤ 3 := by
  cases row <;> decide

/-- R26: where the fetch has succeeded, no advance wraps in the 9 bits of `pc`. -/
theorem toNat_pc_add {p : PcWord} {k : Nat} (hp : p.toNat + 2 < Config.memSize) (hk : k ≤ 3) :
    (p + BitVec.ofNat 9 k).toNat = p.toNat + k := by
  simp only [Config.memSize] at hp
  rw [BitVec.toNat_add, BitVec.toNat_ofNat]
  omega

theorem toNat_pc_add_le {p : PcWord} {k : Nat} (hp : p.toNat + 2 < Config.memSize) (hk : k ≤ 3) :
    (p + BitVec.ofNat 9 k).toNat ≤ Config.memSize := by
  have := toNat_pc_add hp hk
  omega

theorem toNat_zext9_le (v : Byte) : (zext9 v).toNat ≤ Config.memSize := by
  rw [toNat_zext9]
  exact (byte_lt_memSize v).le

/-! ### The invariant, update by update -/

section
variable {s : State}

theorem State.Inv.setReg (h : s.Inv) (r : Reg) (v : Byte) : (s.setReg r v).Inv := h

theorem State.Inv.emit (h : s.Inv) (e : Event) : (s.emit e).Inv := h

theorem State.Inv.setPc (h : s.Inv) {p : PcWord} (hp : p.toNat ≤ Config.memSize) : (s.setPc p).Inv := by
  obtain ⟨hmem, -, hfl, hrun, hinfo⟩ := h
  exact ⟨hmem, hp, hfl, hrun, hinfo⟩

theorem State.Inv.setFl (h : s.Inv) {f : Flags} (hf : flagsLegal f = true) : (s.setFl f).Inv := by
  obtain ⟨hmem, hpc, -, hrun, hinfo⟩ := h
  exact ⟨hmem, hpc, hf, hrun, hinfo⟩

/-- A store at an address held in a byte. -/
theorem State.Inv.store (h : s.Inv) (a v : Byte) : (s.setMem (s.mem.write a.toNat v)).Inv := by
  obtain ⟨hmem, hpc, hfl, hrun, hinfo⟩ := h
  exact ⟨Memory.wf_write hmem (byte_lt_memSize a), hpc, hfl, hrun, hinfo⟩

/-- Entering Halted with a cause of its own (R29, R171). -/
theorem State.Inv.halt (h : s.Inv) {c : Cause} (hc : c ≠ .none) (n : Nat) : (s.halt c n).Inv := by
  obtain ⟨hmem, hpc, hfl, -, -⟩ := h
  exact ⟨hmem, hpc, hfl, by simp [hc], fun h0 => absurd h0 hc⟩

end

/-- R27, R132: an unsigned comparison has exactly one result. -/
theorem cmpFlags_exactly_one (a b : Byte) :
    (cmpFlags a b).e.toNat + (cmpFlags a b).l.toNat + (cmpFlags a b).g.toNat = 1 := by
  obtain h | h | h := Nat.lt_trichotomy a.toNat b.toNat
  · simp [cmpFlags, h, h.ne, h.le]
  · simp [cmpFlags, h]
  · simp [cmpFlags, h, h.ne', h.le]

theorem flagsLegal_cmpFlags (a b : Byte) : flagsLegal (cmpFlags a b) = true :=
  decide_eq_true (cmpFlags_exactly_one a b).le

/-- Every instruction that executes where a fetch has succeeded keeps the invariant. -/
theorem Effect.keeps_inv {i : Instr} {s t : State} (he : Effect i s t) (hs : s.Inv)
    (hpc : s.pc.toNat + 2 < Config.memSize) : t.Inv := by
  have hadv {k : Nat} (hk : k ≤ 3) : (s.pc + BitVec.ofNat 9 k).toNat ≤ Config.memSize := toNat_pc_add_le hpc hk
  cases he with
  | fault _ _ c n hc => exact hs.halt (by rintro rfl; simp at hc) n
  | writeReg _ _ a v _ _ _ => exact (hs.setReg (regIndex a) v).setPc (hadv (rowLength_le_three _))
  | store _ a b _ _ => exact (hs.store _ _).setPc (hadv le_rfl)
  | emit _ _ e _ => exact (hs.emit e).setPc (hadv (k := 2) (by decide))
  | compare _ a b x y => exact (hs.setFl (flagsLegal_cmpFlags x y)).setPc (hadv le_rfl)
  | jump _ _ v _ => exact hs.setPc (toNat_zext9_le v)
  | fallThrough _ _ _ => exact hs.setPc (hadv (k := 2) (by decide))
  | call _ a v => exact ((hs.setReg 7 (pushAddr s)).store (pushAddr s) _).setPc (toNat_zext9_le v)
  | ret _ n => exact (hs.setReg 7 n).setPc (toNat_zext9_le _)
  | push _ a _ => exact ((hs.setReg 7 (pushAddr s)).store (pushAddr s) _).setPc (hadv (k := 2) (by decide))
  | pop _ a n _ => exact ((hs.setReg 7 n).setReg (regIndex a) _).setPc (hadv (k := 2) (by decide))
  | hlt _ => exact (hs.halt (c := .hlt) (by decide) _).setPc (hadv (k := 1) (by decide))

/-- Settles O13: a step does nothing, or takes a fault, or has one of the effects of an instruction whose fetch
succeeded, and each of them keeps the invariant. -/
theorem everyStepKeepsInv : Obligations.EveryStepKeepsInv := by
  intro s t hs h
  obtain ⟨-, rfl⟩ | ⟨-, c, n, hc, rfl⟩ | ⟨i, ⟨-, hpc, -⟩, hx⟩ := step_cases h
  · exact hs
  · exact hs.halt (by rintro rfl; simp at hc) n
  · exact (exec_effect hx).keeps_inv hs hpc

/-- Settles O14: no cell is listed after reset, `pc` and the flags are clear, and the machine runs without a cause. -/
theorem resetMeetsInv : Obligations.ResetMeetsInv :=
  ⟨reset_mem_wf, by decide, by decide, by decide, fun _ => rfl⟩

/-! ### The length of a fetched instruction -/

@[simp] theorem opcode_assemble (row : Opcode) (x y : Byte) : (assemble row x y).opcode = row := by
  cases row <;> rfl

theorem opcodeByte_of_decodeOpcode {op : Byte} {row : Opcode} (h : decodeOpcode op = some row) :
    opcodeByte row = op := by
  simpa using List.find?_some h

/-- R67, R83: the latch that decoded to an instruction holds the opcode byte of its row. -/
theorem opcodeByte_of_decode {ir x y : Byte} {i : Instr} (h : decode ir x y = .instr i) :
    opcodeByte i.opcode = ir := by
  unfold decode at h
  split at h
  next row hrow =>
    cases h
    rw [opcode_assemble]
    exact opcodeByte_of_decodeOpcode hrow
  next => cases h

/-- R80 to R85: a step that fetches an instruction executes it. -/
theorem step_of_fetches {s : State} {i : Instr} (h : fetches s i) : step s = exec i s := by
  obtain ⟨hrun, hpc, hdec⟩ := h
  simp only [step, hrun, fetchInstr, fetch_of_lt s hpc, Res.bind_ok, decodeLatches, hdec]

/-- R88: while the machine stays Running, an instruction that does not control `pc` moves it by its length. -/
theorem Effect.pc_of_no_control {i : Instr} {s t : State} (he : Effect i s t) (hi : opcodePcControl i.opcode = .no)
    (hrun : t.run = .running) : t.pc = s.pc + BitVec.ofNat 9 (rowLength i.opcode) := by
  cases he with
  | fault | hlt => cases hrun
  | writeReg => rfl
  | store | compare | push | pop => simp [Instr.opcode, opcodeFormat]
  | emit _ _ _ ho => obtain ho | ho := ho <;> simp [ho, opcodeFormat]
  | jump _ _ _ hc => exact absurd hi hc
  | fallThrough _ _ hc => simp [hi] at hc
  | call | ret => cases hi

/-- Settles O18: the length the advance adds is read from the latched opcode byte, and below `N - 2` the sum does not
wrap. -/
theorem advanceNeverWraps : Obligations.AdvanceNeverWraps := by
  intro s t i hf hi h hrun
  have hx := step_of_fetches hf ▸ h
  obtain ⟨-, hpc, hdec⟩ := hf
  have ht := (exec_effect hx).pc_of_no_control hi hrun
  have hadd := toNat_pc_add hpc (rowLength_le_three i.opcode)
  have hlen : rowLength i.opcode = ((s.cell s.pc.toNat).extractLsb' 6 2).toNat + 1 := by
    rw [← opcodeByte_of_decode hdec]
    rfl
  have hle := toNat_pc_add_le hpc (rowLength_le_three i.opcode)
  rw [← ht] at hadd hle
  exact ⟨by omega, hle⟩

end Sys2Proof.Machine
end

section
/-! SUPPORT. The register file, and what each instruction leaves as it was (spec/10_state.md R21 to R30). -/

namespace Sys2Proof.Machine

/-- Settles O22: masking is the remainder modulo 256, a register reads back what was written to it and to no other, and
the reset values are those of `State.reg_reset`. -/
theorem registerReadsBackWhatWasWritten : Obligations.RegisterReadsBackWhatWasWritten := by
  refine ⟨fun s r v => ?_, fun s r q v hq => State.reg_setReg_other s _ hq, State.reg_reset⟩
  rw [State.reg_setReg_same, toNat_mask8]

/-- Settles O36: the next state of CMP holds `cmpFlags` of the two registers, and a comparison has exactly one
result. -/
theorem cmpSetsExactlyOneFlag : Obligations.CmpSetsExactlyOneFlag := by
  intro s a b ha hb
  exact ⟨_, execCmp_eq a b s ha hb, rfl, decide_eq_true_iff, decide_eq_true_iff, decide_eq_true_iff,
    cmpFlags_exactly_one _ _⟩

/-- R150, R151: moving the stack pointer down and up again gives it back, at 0 too. -/
theorem mask8_pushAddr_add_one (s : State) : mask8 (((pushAddr s).toNat : Int) + 1) = s.reg 7 := by
  apply BitVec.eq_of_toNat_eq
  have hlt := (s.reg 7).isLt
  rw [toNat_mask8, toNat_pushAddr]
  omega

/-- Settles O44: POP reads the cell PUSH wrote, since the stack pointer stands there, and moves the stack pointer back
before it writes its operand. -/
theorem pushThenPopRoundTrips : Obligations.PushThenPopRoundTrips := by
  intro s a b ha hb
  refine ⟨_, _, execPush_eq a s ha, execPop_eq b _ hb, by simp, fun hb7 => ?_⟩
  rw [State.reg_setPc, State.reg_setReg_other _ _ hb7.symm]
  simp [mask8_pushAddr_add_one]

/-! ### Frames of single instructions -/

/-- An outcome has one next state: that of the instruction's equation is the one it answers. -/
theorem next_unique {o : Host.Outcome State Fault Refusal} {t u : State} (ht : o = .next t) (hu : o = .next u) :
    t = u := by
  cases ht.symm.trans hu
  rfl

section
variable {s t : State} {r : Reg} {v : Byte} {p : PcWord}

theorem frame_of_write_reg (ht : t = (s.setReg r v).setPc p) :
    sameRegsBut [r] s t ∧ t.fl = s.fl ∧ sameRun s t ∧ t.out = s.out ∧ sameCellsBut [] s t := by
  subst ht
  exact ⟨fun q hq => State.reg_setReg_other s v (by simpa using hq), rfl, ⟨rfl, rfl, rfl⟩, rfl, fun _ _ => rfl⟩

theorem frame_of_write_cell {x : Nat} (ht : t = (s.setMem (s.mem.write x v)).setPc p) :
    sameRegsBut [] s t ∧ sameCellsBut [x] s t ∧ t.fl = s.fl ∧ sameRun s t ∧ t.out = s.out := by
  subst ht
  exact ⟨fun _ _ => rfl, fun y hy => Memory.read_write_other s.mem v (by simpa using hy), rfl, ⟨rfl, rfl, rfl⟩, rfl⟩

theorem frame_of_push {x : Nat} {w : Byte}
    (ht : t = ((s.setReg r v).setMem (s.mem.write x w)).setPc p) :
    sameRegsBut [r] s t ∧ sameCellsBut [x] s t ∧ t.fl = s.fl ∧ sameRun s t ∧ t.out = s.out := by
  subst ht
  exact ⟨fun q hq => State.reg_setReg_other s v (by simpa using hq),
    fun y hy => Memory.read_write_other s.mem w (by simpa using hy), rfl, ⟨rfl, rfl, rfl⟩, rfl⟩

theorem frame_of_pop {q : Reg} {w : Byte} (ht : t = ((s.setReg r v).setReg q w).setPc p) :
    sameRegsBut [r, q] s t ∧ sameCellsBut [] s t ∧ t.fl = s.fl ∧ sameRun s t ∧ t.out = s.out := by
  subst ht
  refine ⟨fun k hk => ?_, fun _ _ => rfl, rfl, ⟨rfl, rfl, rfl⟩, rfl⟩
  simp only [List.mem_cons, List.not_mem_nil, or_false, not_or] at hk
  obtain ⟨hkr, hkq⟩ := hk
  rw [State.reg_setPc, State.reg_setReg_other _ _ hkq, State.reg_setReg_other _ _ hkr]

end

/-- The instructions whose one destination is their first operand write that register and `pc`. -/
theorem exec_eq_write_reg {s t : State} {a b : Byte} {i : Instr} (ha : regByteOk a = true) (hb : regByteOk b = true)
    (hi : (i = .div a b ∨ i = .mod a b) ∧ s.reg (regIndex b) ≠ 0 ∨
      i ∈ [Instr.ld a b, .add a b, .sub a b, .mul a b, .and a b, .or a b, .xor a b, .inc a, .dec a, .not a])
    (h : exec i s = .next t) : ∃ v p, t = (s.setReg (regIndex a) v).setPc p := by
  obtain ⟨hi, hne⟩ | hi := hi
  · have hnz : (s.reg (regIndex b)).toNat ≠ 0 := fun h0 => hne (BitVec.eq_of_toNat_eq h0)
    obtain rfl | rfl := hi
    · exact ⟨_, _, next_unique h ((execDiv_eq a b s ha hb).trans (if_neg hnz))⟩
    · exact ⟨_, _, next_unique h ((execMod_eq a b s ha hb).trans (if_neg hnz))⟩
  · simp only [List.mem_cons, List.not_mem_nil, or_false] at hi
    obtain rfl | rfl | rfl | rfl | rfl | rfl | rfl | rfl | rfl | rfl := hi
    · exact ⟨_, _, next_unique h (execLd_eq a b s ha hb)⟩
    · exact ⟨_, _, next_unique h (execAdd_eq a b s ha hb)⟩
    · exact ⟨_, _, next_unique h (execSub_eq a b s ha hb)⟩
    · exact ⟨_, _, next_unique h (execMul_eq a b s ha hb)⟩
    · exact ⟨_, _, next_unique h (execAnd_eq a b s ha hb)⟩
    · exact ⟨_, _, next_unique h (execOr_eq a b s ha hb)⟩
    · exact ⟨_, _, next_unique h (execXor_eq a b s ha hb)⟩
    · exact ⟨_, _, next_unique h (execInc_eq a s ha)⟩
    · exact ⟨_, _, next_unique h (execDec_eq a s ha)⟩
    · exact ⟨_, _, next_unique h (execNot_eq a s ha)⟩

/-- Settles O47: each of these instructions is one register write and a move of `pc`. -/
theorem frameOfRegisterWriters : Obligations.FrameOfRegisterWriters := by
  intro s t a b i ha hb hi h
  obtain ⟨v, p, ht⟩ := exec_eq_write_reg ha hb hi h
  exact frame_of_write_reg ht

/-- Settles O48: LDI is one register write and a move of `pc`. -/
theorem frameOfLdi : Obligations.FrameOfLdi := fun s _ a imm ha h =>
  frame_of_write_reg (next_unique h (execLdi_eq a imm s ha))

/-- The jumps move `pc` and nothing else, whether taken or not. -/
theorem exec_eq_setPc {s t : State} {a : Byte} {i : Instr} (ha : regByteOk a = true)
    (hi : i ∈ [Instr.jmp a, .jeq a, .jne a, .jgt a, .jlt a]) (h : exec i s = .next t) : ∃ p, t = s.setPc p := by
  simp only [List.mem_cons, List.not_mem_nil, or_false] at hi
  obtain rfl | rfl | rfl | rfl | rfl := hi
  · exact ⟨_, next_unique h (execJmp_eq a s ha)⟩
  · exact ⟨_, next_unique h (execJeq_eq a s ha)⟩
  · exact ⟨_, next_unique h (execJne_eq a s ha)⟩
  · exact ⟨_, next_unique h (execJgt_eq a s ha)⟩
  · exact ⟨_, next_unique h (execJlt_eq a s ha)⟩

/-- Settles O49: CMP sets the flags, PRN and PRA append to the output, HLT sets run state, cause and information, and
the jumps do none of these; each also moves `pc`. -/
theorem frameOfInstructionsWithoutDestination : Obligations.FrameOfInstructionsWithoutDestination := by
  intro s t a b i ha hb hi h
  obtain hcmp | hprn | hpra | hhlt | hjump : i = .cmp a b ∨ i = .prn a ∨ i = .pra a ∨ i = .hlt ∨
      i ∈ [Instr.jmp a, .jeq a, .jne a, .jgt a, .jlt a] := by
    simp only [List.mem_cons, List.not_mem_nil, or_false] at hi ⊢
    tauto
  · subst hcmp
    cases next_unique h (execCmp_eq a b s ha hb)
    exact ⟨fun _ _ => rfl, fun _ _ => rfl, fun hne => absurd rfl hne, fun _ => ⟨rfl, rfl, rfl⟩, fun _ _ => rfl⟩
  · subst hprn
    cases next_unique h (execPrn_eq a s ha)
    exact ⟨fun _ _ => rfl, fun _ _ => rfl, fun _ => rfl, fun _ => ⟨rfl, rfl, rfl⟩, fun hne _ => absurd rfl hne⟩
  · subst hpra
    cases next_unique h (execPra_eq a s ha)
    exact ⟨fun _ _ => rfl, fun _ _ => rfl, fun _ => rfl, fun _ => ⟨rfl, rfl, rfl⟩, fun _ hne => absurd rfl hne⟩
  · subst hhlt
    cases next_unique h (execHlt_eq s)
    exact ⟨fun _ _ => rfl, fun _ _ => rfl, fun _ => rfl, fun hne => absurd rfl hne, fun _ _ => rfl⟩
  · obtain ⟨p, rfl⟩ := exec_eq_setPc ha hjump h
    exact ⟨fun _ _ => rfl, fun _ _ => rfl, fun _ => rfl, fun _ => ⟨rfl, rfl, rfl⟩, fun _ _ => rfl⟩

/-- Settles O50: ST is one cell write; PUSH and CALL are one push; each also moves `pc`. -/
theorem frameOfStores : Obligations.FrameOfStores := by
  intro s t a b ha hb
  refine ⟨fun h => frame_of_write_cell (next_unique h (execSt_eq a b s ha hb)), ?_⟩
  rintro (hpush | hcall)
  · exact frame_of_push (next_unique hpush (execPush_eq a s ha))
  · exact frame_of_push (next_unique hcall (execCall_eq a s ha))

/-- Settles O51: RET writes the stack pointer and `pc`, POP the stack pointer, then its operand, and `pc`. -/
theorem frameOfPops : Obligations.FrameOfPops := by
  intro s t a ha
  refine ⟨fun h => ?_, fun h => frame_of_pop (next_unique h (execPop_eq a s ha))⟩
  obtain ⟨hregs, hfl, hrun, hout, hcells⟩ := frame_of_write_reg (next_unique h (execRet_eq s))
  exact ⟨hregs, hcells, hfl, hrun, hout⟩

/-! ### Who writes the flags and the output -/

theorem Effect.fl_eq_or_cmp {i : Instr} {s t : State} (he : Effect i s t) : t.fl = s.fl ∨ ∃ a b, i = .cmp a b := by
  cases he with
  | compare _ a b => exact .inr ⟨a, b, rfl⟩
  | fault | writeReg | store | emit | jump | fallThrough | call | ret | push | pop | hlt => exact .inl rfl

theorem Effect.out_eq_or_emit {i : Instr} {s t : State} (he : Effect i s t) :
    t.out = s.out ∨ i.opcode ∈ [Opcode.prn, .pra] ∧ ∃ e, t.out = s.out ++ [e] := by
  cases he with
  | emit _ _ e hi => exact .inr ⟨by simpa using hi, e, rfl⟩
  | fault | writeReg | store | compare | jump | fallThrough | call | ret | push | pop | hlt => exact .inl rfl

/-- Settles O52: of everything a step can do, only the effect of CMP sets the flags. -/
theorem onlyCmpWritesFlags : Obligations.OnlyCmpWritesFlags := by
  intro s t h hne
  obtain ⟨-, rfl⟩ | ⟨-, c, n, -, rfl⟩ | ⟨i, hf, hx⟩ := step_cases h
  · exact absurd rfl hne
  · exact absurd rfl hne
  · obtain hfl | ⟨a, b, rfl⟩ := (exec_effect hx).fl_eq_or_cmp
    · exact absurd hfl hne
    · exact ⟨a, b, hf⟩

/-- Settles O55: of everything a step can do, only the effect of PRN and PRA touches the output, and it appends one
event. -/
theorem outputOnlyGrowsByPrnAndPra : Obligations.OutputOnlyGrowsByPrnAndPra := by
  intro s t h
  have hkept : t.out = s.out → ∃ es, t.out = s.out ++ es ∧ es.length ≤ 1 ∧
      (es ≠ [] → ∃ i, fetches s i ∧ i.opcode ∈ [Opcode.prn, .pra]) :=
    fun hout => ⟨[], by simp [hout], by simp, fun hne => absurd rfl hne⟩
  obtain ⟨-, rfl⟩ | ⟨-, c, n, -, rfl⟩ | ⟨i, hf, hx⟩ := step_cases h
  · exact hkept rfl
  · exact hkept rfl
  · obtain hout | ⟨hi, e, hout⟩ := (exec_effect hx).out_eq_or_emit
    · exact hkept hout
    · exact ⟨[e], hout, le_rfl, fun _ => ⟨i, hf, hi⟩⟩

end Sys2Proof.Machine
end

section
/-! SUPPORT. Non-interference: a relation between states that agree in all a step reads, and that every update keeps, is
kept by every meaning. Used for the flags (spec/10_state.md R23, R27) and for the output (R30). -/

namespace Sys2Proof.Machine

/-- `R` relates states that agree in registers, `pc`, run state and memory, and each update of the state keeps it. The
flags and the output, of which it says nothing, are what related states may differ in. -/
structure KeptByUpdates (R : State → State → Prop) : Prop where
  reg {s s' : State} (h : R s s') (q : Reg) : s'.reg q = s.reg q
  pc {s s' : State} (h : R s s') : s'.pc = s.pc
  run {s s' : State} (h : R s s') : s'.run = s.run
  mem {s s' : State} (h : R s s') : s'.mem = s.mem
  setReg {s s' : State} (h : R s s') (q : Reg) (v : Byte) : R (s.setReg q v) (s'.setReg q v)
  setPc {s s' : State} (h : R s s') (p : PcWord) : R (s.setPc p) (s'.setPc p)
  setMem {s s' : State} (h : R s s') (m : Memory) : R (s.setMem m) (s'.setMem m)
  emit {s s' : State} (h : R s s') (e : Event) : R (s.emit e) (s'.emit e)
  halt {s s' : State} (h : R s s') (c : Cause) (n : Nat) : R (s.halt c n) (s'.halt c n)

/-- `R` also relates only states with the same flags, and writing them keeps it. -/
structure KeepsFlags (R : State → State → Prop) : Prop where
  fl {s s' : State} (h : R s s') : s'.fl = s.fl
  setFl {s s' : State} (h : R s s') (f : Flags) : R (s.setFl f) (s'.setFl f)

/-- Two parts of a step end the same way, with the same value and in related states. -/
inductive Res.Related (R : State → State → Prop) {α : Type} : Res α → Res α → Prop where
  | ok (v : α) {s s' : State} (h : R s s') : Res.Related R (.ok v s) (.ok v s')
  | raised {s s' : State} (h : R s s') : Res.Related R (.raised s) (.raised s')

/-- Every next state of the first outcome is matched by a related one of the second. -/
def Simulated (R : State → State → Prop) (o o' : Host.Outcome State Fault Refusal) : Prop :=
  ∀ t, o = .next t → ∃ t', o' = .next t' ∧ R t t'

variable {R : State → State → Prop} {s s' : State}

theorem Simulated.next (h : R s s') : Simulated R (.next s) (.next s') := by
  rintro t ⟨⟩
  exact ⟨s', rfl, h⟩

theorem Res.Related.bind {α β : Type} {r r' : Res α} {k : α → State → Res β} (h : Res.Related R r r')
    (hk : ∀ v s s', R s s' → Res.Related R (k v s) (k v s')) : Res.Related R (r.bind k) (r'.bind k) := by
  cases h with
  | ok v h => exact hk v _ _ h
  | raised h => exact .raised h

/-! ### The shared operations -/

theorem raise_related (hR : KeptByUpdates R) (h : R s s') {α : Type} (c : Cause) (n : Nat) :
    Res.Related R (raise c n s : Res α) (raise c n s') := .raised (hR.halt h c n)

theorem memRead_related (hR : KeptByUpdates R) (h : R s s') (a : Nat) :
    Res.Related R (memRead a s) (memRead a s') := by
  by_cases ha : a < Config.memSize
  · rw [memRead_of_lt s ha, memRead_of_lt s' ha, State.cell, State.cell, hR.mem h]
    exact .ok _ h
  · rw [memRead_of_ge s (Nat.not_lt.mp ha), memRead_of_ge s' (Nat.not_lt.mp ha)]
    exact raise_related hR h _ _

theorem memWrite_related (hR : KeptByUpdates R) (h : R s s') (a : Nat) (v : Byte) :
    Res.Related R (memWrite a v s) (memWrite a v s') := by
  by_cases ha : a < Config.memSize
  · rw [memWrite_of_lt v s ha, memWrite_of_lt v s' ha, hR.mem h]
    exact .ok _ (hR.setMem h _)
  · rw [memWrite_of_ge v s (Nat.not_lt.mp ha), memWrite_of_ge v s' (Nat.not_lt.mp ha)]
    exact raise_related hR h _ _

theorem push_related (hR : KeptByUpdates R) (h : R s s') (v : Byte) : Res.Related R (push v s) (push v s') := by
  have haddr : pushAddr s' = pushAddr s := by simp only [pushAddr, State.sp_eq_reg, hR.reg h]
  rw [push, push, haddr]
  exact memWrite_related hR (hR.setReg h _ _) _ v

theorem pop_related (hR : KeptByUpdates R) (h : R s s') : Res.Related R (pop s) (pop s') := by
  simp only [pop, State.sp_eq_reg, hR.reg h]
  refine (memRead_related hR h _).bind fun v t t' ht => ?_
  rw [hR.reg ht]
  exact .ok v (hR.setReg ht _ _)

theorem finish_simulated (hR : KeptByUpdates R) (row : Opcode) (pc0 : PcWord) {r r' : Res Bool}
    (h : Res.Related R r r') : Simulated R (finish row pc0 r) (finish row pc0 r') := by
  cases h with
  | raised h => exact .next h
  | ok taken h =>
    cases taken with
    | true => exact .next h
    | false => exact .next (hR.setPc h _)

/-! ### The frames of the formats -/

theorem frameZ_simulated (hR : KeptByUpdates R) (h : R s s') {row : Opcode} {body : State → Res Bool}
    (hbody : ∀ s s', R s s' → Res.Related R (body s) (body s')) :
    Simulated R (frameZ row body s) (frameZ row body s') := by
  rw [frameZ, frameZ, hR.pc h]
  exact finish_simulated hR row s.pc (hbody s s' h)

theorem frameR_simulated (hR : KeptByUpdates R) (h : R s s') {row : Opcode} {a : Byte} {body : Reg → State → Res Bool}
    (hbody : ∀ ra s s', R s s' → Res.Related R (body ra s) (body ra s')) :
    Simulated R (frameR row a body s) (frameR row a body s') := by
  cases ha : regByteOk a with
  | false =>
    rw [frameR_of_reserved _ _ _ ha, frameR_of_reserved _ _ _ ha]
    exact .next (hR.halt h _ _)
  | true =>
    rw [frameR_of_ok _ _ _ ha, frameR_of_ok _ _ _ ha, hR.pc h]
    exact finish_simulated hR row s.pc (hbody _ s s' h)

theorem frameRR_simulated (hR : KeptByUpdates R) (h : R s s') {row : Opcode} {a b : Byte}
    {body : Reg → Reg → State → Res Bool}
    (hbody : ∀ ra rb s s', R s s' → Res.Related R (body ra rb s) (body ra rb s')) :
    Simulated R (frameRR row a b body s) (frameRR row a b body s') := by
  cases ha : regByteOk a with
  | false =>
    rw [frameRR_of_reserved_first _ _ _ _ ha, frameRR_of_reserved_first _ _ _ _ ha]
    exact .next (hR.halt h _ _)
  | true =>
    cases hb : regByteOk b with
    | false =>
      rw [frameRR_of_reserved_second _ _ _ ha hb, frameRR_of_reserved_second _ _ _ ha hb]
      exact .next (hR.halt h _ _)
    | true =>
      rw [frameRR_of_ok _ _ _ ha hb, frameRR_of_ok _ _ _ ha hb, hR.pc h]
      exact finish_simulated hR row s.pc (hbody _ _ s s' h)

/-! ### The shared bodies -/

theorem aluBinary_simulated (hR : KeptByUpdates R) (h : R s s') {row : Opcode} {a b : Byte}
    {op : Byte → Byte → Byte} :
    Simulated R (frameRR row a b (aluBinary op) s) (frameRR row a b (aluBinary op) s') := by
  refine frameRR_simulated hR h fun ra rb u u' hu => ?_
  rw [aluBinary_eq, aluBinary_eq, hR.reg hu, hR.reg hu]
  exact .ok _ (hR.setReg hu _ _)

theorem aluUnary_simulated (hR : KeptByUpdates R) (h : R s s') {row : Opcode} {a : Byte} {op : Byte → Byte} :
    Simulated R (frameR row a (aluUnary op) s) (frameR row a (aluUnary op) s') := by
  refine frameR_simulated hR h fun ra u u' hu => ?_
  rw [aluUnary_eq, aluUnary_eq, hR.reg hu]
  exact .ok _ (hR.setReg hu _ _)

theorem aluDividing_simulated (hR : KeptByUpdates R) (h : R s s') {row : Opcode} {a b : Byte}
    {op : Byte → Byte → Option Byte} :
    Simulated R (frameRR row a b (aluDividing op) s) (frameRR row a b (aluDividing op) s') := by
  refine frameRR_simulated hR h fun ra rb u u' hu => ?_
  rw [aluDividing, aluDividing, hR.reg hu, hR.reg hu, hR.pc hu]
  cases op (u.reg ra) (u.reg rb) with
  | some v => exact .ok _ (hR.setReg hu _ _)
  | none => exact raise_related hR hu _ _

theorem jumpIf_simulated (hR : KeptByUpdates R) (h : R s s') {row : Opcode} {a : Byte} {cond : Flags → Bool}
    (hcond : ∀ s s', R s s' → cond s'.fl = cond s.fl) :
    Simulated R (frameR row a (jumpIf cond) s) (frameR row a (jumpIf cond) s') := by
  refine frameR_simulated hR h fun ra u u' hu => ?_
  rw [jumpIf, jumpIf, hcond u u' hu, hR.reg hu]
  cases cond u.fl with
  | true => exact .ok _ (hR.setPc hu _)
  | false => exact .ok _ hu

theorem emit_simulated (hR : KeptByUpdates R) (h : R s s') {row : Opcode} {a : Byte} (ev : Byte → Event) :
    Simulated R (frameR row a (fun ra s => .ok false (s.emit (ev (s.reg ra)))) s)
      (frameR row a (fun ra s => .ok false (s.emit (ev (s.reg ra)))) s') := by
  refine frameR_simulated hR h fun ra u u' hu => ?_
  simp only [hR.reg hu]
  exact .ok _ (hR.emit hu _)

/-! ### Instructions and steps -/

/-- An instruction that is no conditional branch and no CMP keeps the relation without looking at the flags. -/
theorem exec_simulated_of_blind (hR : KeptByUpdates R) (h : R s s') {i : Instr}
    (hi : i.opcode ∉ [Opcode.jeq, .jne, .jgt, .jlt, .cmp]) : Simulated R (exec i s) (exec i s') := by
  cases i with
  | ldi a imm => exact frameR_simulated hR h fun ra _ _ hu => .ok _ (hR.setReg hu ra imm)
  | ld a b =>
    unfold exec execLd
    refine frameRR_simulated hR h fun ra rb u u' hu => ?_
    simp only [hR.reg hu]
    exact (memRead_related hR hu _).bind fun v _ _ hw => .ok _ (hR.setReg hw ra v)
  | st a b =>
    unfold exec execSt
    refine frameRR_simulated hR h fun ra rb u u' hu => ?_
    simp only [hR.reg hu]
    exact (memWrite_related hR hu _ _).bind fun _ _ _ hw => .ok _ hw
  | prn a => exact emit_simulated hR h .num
  | pra a => exact emit_simulated hR h .chr
  | add a b | sub a b | mul a b | and a b | or a b | xor a b => exact aluBinary_simulated hR h
  | div a b | mod a b => exact aluDividing_simulated hR h
  | inc a | dec a | not a => exact aluUnary_simulated hR h
  | cmp | jeq | jne | jgt | jlt => simp [Instr.opcode] at hi
  | jmp a => exact jumpIf_simulated hR h fun _ _ _ => rfl
  | call a =>
    unfold exec execCall
    refine frameR_simulated hR h fun ra u u' hu => ?_
    simp only [hR.pc hu]
    refine (push_related hR hu _).bind fun _ w w' hw => ?_
    rw [hR.reg hw]
    exact .ok _ (hR.setPc hw _)
  | ret =>
    exact frameZ_simulated hR h fun _ _ hu =>
      (pop_related hR hu).bind fun v _ _ hw => .ok _ (hR.setPc hw (zext9 v))
  | push a =>
    unfold exec execPush
    refine frameR_simulated hR h fun ra u u' hu => ?_
    simp only [hR.reg hu]
    exact (push_related hR hu _).bind fun _ _ _ hw => .ok _ hw
  | pop a =>
    unfold exec execPop
    exact frameR_simulated hR h fun ra _ _ hu =>
      (pop_related hR hu).bind fun v _ _ hw => .ok _ (hR.setReg hw ra v)
  | hlt =>
    unfold exec execHlt
    refine frameZ_simulated hR h fun u u' hu => ?_
    simp only [hR.pc hu]
    exact .ok _ (hR.halt hu _ _)

/-- Every instruction keeps a relation that the flags do not break. -/
theorem exec_simulated (hR : KeptByUpdates R) (hF : KeepsFlags R) (h : R s s') (i : Instr) :
    Simulated R (exec i s) (exec i s') := by
  by_cases hi : i.opcode ∉ [Opcode.jeq, .jne, .jgt, .jlt, .cmp]
  · exact exec_simulated_of_blind hR h hi
  · cases i with
    | jeq a | jne a | jgt a | jlt a => exact jumpIf_simulated hR h fun _ _ hu => by rw [hF.fl hu]
    | cmp a b =>
      unfold exec execCmp
      refine frameRR_simulated hR h fun ra rb u u' hu => ?_
      simp only [hR.reg hu]
      exact .ok _ (hF.setFl hu _)
    | _ => simp [Instr.opcode] at hi

theorem decodeLatches_related (hR : KeptByUpdates R) (h : R s s') (l : Byte × Byte × Byte) :
    Res.Related R (decodeLatches l s) (decodeLatches l s') := by
  unfold decodeLatches
  cases decode l.1 l.2.1 l.2.2 with
  | instr i => exact .ok i h
  | unknownOpcode op => exact raise_related hR h _ _

theorem fetch_related (hR : KeptByUpdates R) (h : R s s') : Res.Related R (fetch s) (fetch s') := by
  rw [fetch, fetch, hR.pc h]
  refine (memRead_related hR h _).bind fun ir t t' ht => ?_
  rw [hR.pc ht]
  refine (memRead_related hR ht _).bind fun x u u' hu => ?_
  rw [hR.pc hu]
  exact (memRead_related hR hu _).bind fun y _ _ hw => .ok _ hw

theorem fetchInstr_related (hR : KeptByUpdates R) (h : R s s') : Res.Related R (fetchInstr s) (fetchInstr s') :=
  (fetch_related hR h).bind fun l _ _ ht => decodeLatches_related hR ht l

/-- Every step keeps a relation that the flags do not break. -/
theorem step_simulated (hR : KeptByUpdates R) (hF : KeepsFlags R) (h : R s s') : Simulated R (step s) (step s') := by
  unfold step
  rw [hR.run h]
  cases s.run with
  | halted => exact .next h
  | running =>
    have hf := fetchInstr_related hR h
    generalize fetchInstr s = r, fetchInstr s' = r' at hf
    cases hf with
    | ok i ht => exact exec_simulated hR hF ht i
    | raised ht => exact .next ht

/-! ### The flags -/

/-- The second state is the first with the flags `f`. -/
def OtherFlags (f : Flags) (s s' : State) : Prop := s' = s.setFl f

theorem otherFlags_keptByUpdates (f : Flags) : KeptByUpdates (OtherFlags f) where
  reg := by rintro _ _ rfl _; rfl
  pc := by rintro _ _ rfl; rfl
  run := by rintro _ _ rfl; rfl
  mem := by rintro _ _ rfl; rfl
  setReg := by rintro _ _ rfl _ _; rfl
  setPc := by rintro _ _ rfl _; rfl
  setMem := by rintro _ _ rfl _; rfl
  emit := by rintro _ _ rfl _; rfl
  halt := by rintro _ _ rfl _ _; rfl

/-- Settles O53: such an instruction relates the next states as it found the states, one the other with the flags
`f`. -/
theorem onlyBranchesReadFlags : Obligations.OnlyBranchesReadFlags := by
  intro i s t f hi h
  have hsim : Simulated (OtherFlags f) (exec i s) (exec i (s.setFl f)) :=
    exec_simulated_of_blind (otherFlags_keptByUpdates f) rfl hi
  obtain ⟨t', ht', rfl⟩ := hsim t h
  exact ht'

/-! ### The output -/

/-- Since their outputs were `base` and `o`, both states have appended the same events, and they agree in all else. -/
def SameEventsSince (base o : List Event) (s s' : State) : Prop :=
  ∃ es, s.out = base ++ es ∧ s' = { s with out := o ++ es }

theorem sameEventsSince_keptByUpdates (base o : List Event) : KeptByUpdates (SameEventsSince base o) where
  reg := by rintro _ _ ⟨es, -, rfl⟩ _; rfl
  pc := by rintro _ _ ⟨es, -, rfl⟩; rfl
  run := by rintro _ _ ⟨es, -, rfl⟩; rfl
  mem := by rintro _ _ ⟨es, -, rfl⟩; rfl
  setReg := by rintro _ _ ⟨es, hes, rfl⟩ _ _; exact ⟨es, hes, rfl⟩
  setPc := by rintro _ _ ⟨es, hes, rfl⟩ _; exact ⟨es, hes, rfl⟩
  setMem := by rintro _ _ ⟨es, hes, rfl⟩ _; exact ⟨es, hes, rfl⟩
  emit := by
    rintro _ _ ⟨es, hes, rfl⟩ e
    exact ⟨es ++ [e], by simp [hes], by simp [State.emit]⟩
  halt := by rintro _ _ ⟨es, hes, rfl⟩ _ _; exact ⟨es, hes, rfl⟩

theorem sameEventsSince_keepsFlags (base o : List Event) : KeepsFlags (SameEventsSince base o) where
  fl := by rintro _ _ ⟨es, -, rfl⟩; rfl
  setFl := by rintro _ _ ⟨es, hes, rfl⟩ _; exact ⟨es, hes, rfl⟩

/-- Settles O56: the two states have appended nothing yet, and every step keeps them alike but for where the outputs
began. -/
theorem outputIsNeverRead : Obligations.OutputIsNeverRead := by
  intro s t o h
  have hstart : SameEventsSince s.out o s { s with out := o } := ⟨[], by simp, by simp⟩
  have hsim := step_simulated (sameEventsSince_keptByUpdates s.out o) (sameEventsSince_keepsFlags s.out o) hstart
  obtain ⟨t', ht', es, hes, rfl⟩ := hsim t h
  exact ⟨es, hes, ht'⟩

end Sys2Proof.Machine
end

section
/-! SUPPORT. The memory: its bounds, what a fetch and a store see of it, and the loader (spec/20_memory.md R40 to R53;
70_reset_and_hazards.md R194, R195). -/

namespace Sys2Proof.Machine

/-! ### The memory port -/

theorem Memory.read_of_not_listed {m : Memory} {a : Nat} (h : ∀ c ∈ m, c.1 ≠ a) : m.read a = memInit a := by
  induction m with
  | nil => exact Memory.read_nil a
  | cons c m ih =>
    have hne : a ≠ c.1 := (h c List.mem_cons_self).symm
    have htail : ∀ d ∈ m, d.1 ≠ a := fun d hd => h d (List.mem_cons_of_mem c hd)
    rw [Memory.read, if_neg hne, ih htail]

/-- Settles O20: below `N` both accesses succeed, and a read after a write is `Memory.read_write`. -/
theorem memoryReadsBackWhatWasWritten : Obligations.MemoryReadsBackWhatWasWritten := by
  refine ⟨fun s a v ha => ⟨_, memWrite_of_lt v s ha, ?_, fun b hb hne => ?_, rfl⟩, fun s a ha hfree => ?_⟩
  · rw [memRead_of_lt _ ha, State.cell_setMem, Memory.read_write_same]
  · refine ⟨s.cell b, memRead_of_lt s hb, ?_⟩
    rw [memRead_of_lt _ hb, State.cell_setMem, Memory.read_write_other s.mem v hne, State.cell]
  · rw [memRead_of_lt s ha, State.cell, Memory.read_of_not_listed hfree]

/-- Settles O21: the bounds check refuses every address from `N` on, and a byte is below `N`. -/
theorem outOfBoundsAccessFaults : Obligations.OutOfBoundsAccessFaults :=
  ⟨fun s _ v ha => ⟨memRead_of_ge s ha, memWrite_of_ge v s ha⟩, fun s v => memRead_byte v s,
    fun s v w => memWrite_byte v w s⟩

/-! ### The over-fetch at the top of memory -/

/-- R81, R82 (decision D7, log 4): the fetch reads at rising addresses from `pc`, so the first one that does not exist is
`N`, or `pc` itself where `pc` is beyond `N`. -/
theorem fetch_of_ge (s : State) (h : Config.memSize ≤ s.pc.toNat + 2) :
    fetch s = raise .addressFault (max s.pc.toNat Config.memSize) s := by
  by_cases h0 : s.pc.toNat < Config.memSize
  · rw [max_eq_right h0.le, fetch, memRead_of_lt s h0, Res.bind_ok]
    obtain h1 | h1 : s.pc.toNat + 1 < Config.memSize ∨ s.pc.toNat + 1 = Config.memSize := by omega
    · have h2 : s.pc.toNat + 2 = Config.memSize := by omega
      rw [memRead_of_lt s h1, Res.bind_ok, h2, memRead_of_ge s le_rfl, Res.bind_raise]
    · rw [h1, memRead_of_ge s le_rfl, Res.bind_raise]
  · have hge : Config.memSize ≤ s.pc.toNat := Nat.not_lt.mp h0
    rw [max_eq_left hge, fetch, memRead_of_ge s hge, Res.bind_raise]

/-- R12, R80: a fetch that raises ends the step. -/
theorem step_of_fetch_raise {s : State} {c : Cause} {n : Nat} (hrun : s.run = .running)
    (hf : fetch s = raise c n s) : step s = .next (s.halt c n) := by
  simp only [step, hrun, fetchInstr, hf, raise, Res.bind_raised]

/-- Settles O8: the fetch raises with the larger of `pc` and `N`, and the step ends there. -/
theorem fetchAtTopOfMemoryFaults : Obligations.FetchAtTopOfMemoryFaults := by
  intro s hrun hpc
  have hf := fetch_of_ge s (by omega)
  rw [max_def] at hf
  exact step_of_fetch_raise hrun hf

/-! ### Stores -/

theorem exec_st (a b : Byte) (s : State) : exec (.st a b) s = execSt a b s := rfl

/-- Settles O28: ST runs from its latches, so its effect is that of `execSt_eq` whatever cell it writes; a later fetch
reads the memory it left. -/
theorem storeOverCodeIsSeenByLaterFetch : Obligations.StoreOverCodeIsSeenByLaterFetch := by
  intro s a b hf ha hb
  have hst := (step_of_fetches hf).trans ((exec_st a b s).trans (execSt_eq a b s ha hb))
  obtain ⟨-, hpc, -⟩ := hf
  refine ⟨_, hst, toNat_pc_add hpc le_rfl, fun u hmem hupc hlt => ?_⟩
  have hcell : u.cell u.pc.toNat = s.reg (regIndex b) := by
    rw [State.cell, hmem, hupc, toNat_zext9, State.setPc_mem, State.setMem_mem, Memory.read_write_same]
  exact ⟨_, _, hcell ▸ fetch_of_lt u hlt⟩

/-- Everything an instruction can do to the memory: nothing; for ST, one write at the address in its first register; for
PUSH and CALL, one write at the decremented stack pointer (R102, R150). -/
theorem Effect.mem_cases {i : Instr} {s t : State} (he : Effect i s t) :
    t.mem = s.mem ∨
    (∃ a b v, i = .st a b ∧ t.mem = s.mem.write (s.reg (regIndex a)).toNat v) ∨
    (∃ a v, (i = .push a ∨ i = .call a) ∧ t.mem = s.mem.write (pushAddr s).toNat v) := by
  cases he with
  | store _ a b => exact .inr (.inl ⟨a, b, _, rfl, rfl⟩)
  | push _ a => exact .inr (.inr ⟨a, _, .inl rfl, rfl⟩)
  | call _ a => exact .inr (.inr ⟨a, _, .inr rfl, rfl⟩)
  | fault | writeReg | emit | compare | jump | fallThrough | ret | pop | hlt => exact .inl rfl

section
variable {s t : State}

theorem sameCellsBut_of_mem_eq (as : List Nat) (h : t.mem = s.mem) : sameCellsBut as s t :=
  fun x _ => congrArg (·.read x) h

theorem sameCellsBut_of_mem_write {x : Nat} {v : Byte} (h : t.mem = s.mem.write x v) : sameCellsBut [x] s t :=
  fun y hy => (congrArg (·.read y) h).trans (Memory.read_write_other s.mem v (by simpa using hy))

theorem Effect.sameCellsBut_of_st {a b : Byte} (he : Effect (.st a b) s t) :
    sameCellsBut [(s.reg (regIndex a)).toNat] s t := by
  obtain hmem | ⟨_, _, _, ⟨⟩, hmem⟩ | ⟨_, _, hi, -⟩ := he.mem_cases
  · exact sameCellsBut_of_mem_eq _ hmem
  · exact sameCellsBut_of_mem_write hmem
  · simp at hi

theorem Effect.sameCellsBut_of_push_or_call {i : Instr} {a : Byte} (hi : i = .push a ∨ i = .call a)
    (he : Effect i s t) : sameCellsBut [(pushAddr s).toNat] s t := by
  obtain hmem | ⟨_, _, _, rfl, -⟩ | ⟨_, _, -, hmem⟩ := he.mem_cases
  · exact sameCellsBut_of_mem_eq _ hmem
  · simp at hi
  · exact sameCellsBut_of_mem_write hmem

theorem Effect.mem_eq_of_no_store {i : Instr} (hi : i.opcode ∉ [Opcode.st, .push, .call]) (he : Effect i s t) :
    t.mem = s.mem := by
  obtain hmem | ⟨_, _, _, rfl, -⟩ | ⟨_, _, rfl | rfl, -⟩ := he.mem_cases
  · exact hmem
  all_goals simp [Instr.opcode] at hi

end

/-- Settles O54: a step that fetches an instruction has one of its effects, and `Effect.mem_cases` names the cell; a step
in Halted and a fault of the fetch write nothing. -/
theorem onlyStoresWriteMemory : Obligations.OnlyStoresWriteMemory := by
  intro s t h
  have heffect {i : Instr} (hf : fetches s i) : Effect i s t := exec_effect (step_of_fetches hf ▸ h)
  refine ⟨fun a b hf => (heffect hf).sameCellsBut_of_st, ?_, fun hno => ?_⟩
  · rintro a (hf | hf)
    · exact (heffect hf).sameCellsBut_of_push_or_call (.inl rfl)
    · exact (heffect hf).sameCellsBut_of_push_or_call (.inr rfl)
  · apply sameCellsBut_of_mem_eq
    obtain ⟨-, rfl⟩ | ⟨-, c, n, -, rfl⟩ | ⟨i, hf, -⟩ := step_cases h
    · rfl
    · rfl
    · exact (heffect hf).mem_eq_of_no_store (hno i hf)

/-! ### The loader -/

/-- The memory after bytes were written to rising addresses from `a`. -/
def Memory.writeBytes : Memory → Nat → List Byte → Memory
  | m, _, [] => m
  | m, a, v :: vs => (m.write a v).writeBytes (a + 1) vs

theorem Memory.read_writeBytes_other (m : Memory) {a x : Nat} {vs : List Byte} (hx : x < a ∨ a + vs.length ≤ x) :
    (m.writeBytes a vs).read x = m.read x := by
  induction vs generalizing m a with
  | nil => rfl
  | cons v vs ih =>
    rw [List.length_cons] at hx
    rw [Memory.writeBytes, ih _ (by omega), Memory.read_write_other m v (by omega)]

theorem Memory.read_writeBytes_of_getElem? (m : Memory) {a k : Nat} {v : Byte} {vs : List Byte}
    (hk : vs[k]? = some v) : (m.writeBytes a vs).read (a + k) = v := by
  induction vs generalizing m a k with
  | nil => simp at hk
  | cons w vs ih =>
    rw [Memory.writeBytes]
    cases k with
    | zero =>
      obtain rfl : w = v := by simpa using hk
      exact (Memory.read_writeBytes_other _ (.inl a.lt_succ_self)).trans (Memory.read_write_same m a w)
    | succ k =>
      rw [List.getElem?_cons_succ] at hk
      rw [show a + (k + 1) = a + 1 + k by omega, ih (m.write a w) hk]

theorem loadBytes_cons_of_lt {a : Nat} (v : Byte) (vs : List Byte) (s : State) (ha : a < Config.memSize) :
    loadBytes a (v :: vs) s = loadBytes (a + 1) vs (s.setMem (s.mem.write a v)) := by
  simp only [loadBytes, memWrite_of_lt v s ha]

theorem loadBytes_cons_of_ge {a : Nat} (v : Byte) (vs : List Byte) (s : State) (ha : Config.memSize ≤ a) :
    loadBytes a (v :: vs) s = .error (.addressFault a) := by
  simp only [loadBytes, memWrite_of_ge v s ha, raise]

/-- R194: bytes that fit from `a` on are all written, and nothing but the memory changes. -/
theorem loadBytes_of_fits {a : Nat} {vs : List Byte} (s : State) (h : a + vs.length ≤ Config.memSize) :
    loadBytes a vs s = .ok (s.setMem (s.mem.writeBytes a vs)) := by
  induction vs generalizing a s with
  | nil => rfl
  | cons v vs ih =>
    rw [List.length_cons] at h
    rw [loadBytes_cons_of_lt v vs s (by omega), ih _ (by omega)]
    rfl

/-- R195: the first byte that does not fit is refused at `N`. -/
theorem loadBytes_of_too_long {a : Nat} {vs : List Byte} (s : State) (ha : a ≤ Config.memSize)
    (h : Config.memSize < a + vs.length) : loadBytes a vs s = .error (.addressFault Config.memSize) := by
  induction vs generalizing a s with
  | nil => exact absurd h (Nat.not_lt.mpr ha)
  | cons v vs ih =>
    rw [List.length_cons] at h
    obtain hlt | rfl := ha.lt_or_eq
    · rw [loadBytes_cons_of_lt v vs s hlt, ih _ hlt (by omega)]
    · exact loadBytes_cons_of_ge v vs s le_rfl

/-- Settles O57: a program that fits leaves `Memory.writeBytes` of its bytes from address 0; a longer one is refused when
the loader reaches `N`. -/
theorem loaderPlacesProgram : Obligations.LoaderPlacesProgram := by
  refine ⟨fun s bytes hlen => ?_, fun s bytes hlen => loadBytes_of_too_long s (Nat.zero_le _) (by omega)⟩
  refine ⟨_, loadBytes_of_fits s (by omega), fun k v hk => ?_, fun x hx => ?_, rfl⟩
  · have hread := s.mem.read_writeBytes_of_getElem? (a := 0) hk
    rwa [Nat.zero_add] at hread
  · exact s.mem.read_writeBytes_other (.inr (by omega))

end Sys2Proof.Machine
end

section
/-! SUPPORT. The decoder and the encoder (spec/30_encoding.md R60 to R70), the operand check that follows the decoder
(40_step_cycle.md R86), and LDI (41_data_move.md R100). -/

namespace Sys2Proof.Machine

/-! ### The opcode table -/

/-- R66 (decision D1, log 1): no earlier row has this row's byte, so the search finds the row itself. -/
@[simp] theorem decodeOpcode_opcodeByte (row : Opcode) : decodeOpcode (opcodeByte row) = some row := by
  cases row <;> rfl

/-- The decoder inverts the opcode column of the table. -/
theorem decodeOpcode_eq_some_iff {op : Byte} {row : Opcode} : decodeOpcode op = some row ↔ opcodeByte row = op :=
  ⟨opcodeByte_of_decodeOpcode, fun h => h ▸ decodeOpcode_opcodeByte row⟩

theorem opcodeByte_injective : Function.Injective opcodeByte := fun r q h =>
  Option.some.inj <| calc some r
    _ = decodeOpcode (opcodeByte r) := (decodeOpcode_opcodeByte r).symm
    _ = decodeOpcode (opcodeByte q) := by rw [h]
    _ = some q := decodeOpcode_opcodeByte q

/-- R60, R65: the two high bits of a row's opcode byte count the operand bytes of its format. -/
theorem operandCount_opcodeByte (row : Opcode) : operandCount (opcodeByte row) = formatOperands (opcodeFormat row) := by
  cases row <;> rfl

theorem formatOperands_le_two (f : Format) : formatOperands f ≤ 2 := by
  cases f <;> decide

theorem Opcode.mem_all (row : Opcode) : row ∈ Opcode.all := by
  cases row <;> decide

/-- Settles O4: the operand counts row by row; the bytes are distinct because the decoder inverts the table. -/
theorem opcodeTableIsSound : Obligations.OpcodeTableIsSound :=
  ⟨operandCount_opcodeByte, opcodeByte_injective, decodeOpcode_opcodeByte⟩

/-- The byte values the decoder finds are the opcode bytes of the rows, each once. -/
theorem foundBytes_perm :
    ((List.range 256).filter fun n => (decodeOpcode (BitVec.ofNat 8 n)).isSome).Perm
      (Opcode.all.map fun row => (opcodeByte row).toNat) := by
  have hrows : (Opcode.all.map fun row => (opcodeByte row).toNat).Nodup :=
    List.Nodup.map (BitVec.toNat_injective.comp opcodeByte_injective) (by decide)
  refine (List.perm_ext_iff_of_nodup (List.nodup_range.filter _) hrows).2 fun n => ?_
  simp only [List.mem_filter, List.mem_range, Option.isSome_iff_exists, decodeOpcode_eq_some_iff, List.mem_map,
    Opcode.mem_all, true_and]
  constructor
  · rintro ⟨hn, row, hrow⟩
    exact ⟨row, by rw [hrow, BitVec.toNat_ofNat, Nat.mod_eq_of_lt hn]⟩
  · rintro ⟨row, rfl⟩
    exact ⟨(opcodeByte row).isLt, row, by simp⟩

/-- R60: an opcode byte that asks for three operand bytes has no row, since no format holds three. -/
theorem decodeOpcode_of_operandCount_three {op : Byte} (h : operandCount op = 3) : decodeOpcode op = none := by
  cases hrow : decodeOpcode op with
  | none => rfl
  | some row =>
    have hcount := operandCount_opcodeByte row
    have hle := formatOperands_le_two (opcodeFormat row)
    rw [opcodeByte_of_decodeOpcode hrow] at hcount
    omega

/-- Settles O5: there are as many known bytes as rows, the three named bytes are searched for in the table, and operand
count 3 belongs to no format. -/
theorem unknownOpcodeBytesAreRefused : Obligations.UnknownOpcodeBytesAreRefused :=
  ⟨foundBytes_perm.length_eq, rfl, rfl, rfl, fun _ => decodeOpcode_of_operandCount_three⟩

/-! ### Decoding and encoding -/

/-- R62, R64: an assembled instruction holds as many of the two fetched bytes as its format has operands. -/
theorem operandBytes_assemble (row : Opcode) (x y : Byte) :
    (assemble row x y).operandBytes = [x, y].take (formatOperands (opcodeFormat row)) := by
  cases row <;> rfl

/-- R64, R82: bytes that begin with an instruction's operand bytes assemble to it. -/
theorem assemble_of_operandBytes_append {i : Instr} {x y : Byte} {rest tail : List Byte}
    (h : i.operandBytes ++ rest = x :: y :: tail) : assemble i.opcode x y = i := by
  cases i with
  | ret | hlt => rfl
  | _ =>
    cases h
    rfl

/-- R60, R62, R67: a byte string decodes to an instruction exactly when its first byte is found as the instruction's row
and the operand bytes follow it. -/
theorem decodeBytes_cons_eq_instr_iff {ir : Byte} {bs rest : List Byte} {i : Instr} :
    decodeBytes (ir :: bs) = .instr i rest ↔ decodeOpcode ir = some i.opcode ∧ bs = i.operandBytes ++ rest := by
  constructor
  · intro h
    simp only [decodeBytes] at h
    split at h
    next => cases h
    next row hrow =>
      split at h
      case h_1 hformat | h_2 hformat | h_3 hformat | h_4 hformat =>
        cases h
        simp [hrow, operandBytes_assemble, hformat, formatOperands]
      case h_5 => cases h
  · rintro ⟨hrow, rfl⟩
    cases i <;> simp only [decodeBytes, hrow] <;> rfl

/-- Settles O1: the opcode byte finds its row, and the operand bytes follow it. -/
theorem decodeOfEncodeIsIdentity : Obligations.DecodeOfEncodeIsIdentity := fun i _ =>
  decodeBytes_cons_eq_instr_iff.2 ⟨decodeOpcode_opcodeByte i.opcode, rfl⟩

/-- Settles O2: the first byte is the opcode byte of the row it finds, and what follows is what the decoder consumed. -/
theorem encodeOfDecodedBytesIsIdentity : Obligations.EncodeOfDecodedBytesIsIdentity := by
  intro bs i rest h
  cases bs with
  | nil => cases h
  | cons ir bs =>
    obtain ⟨hrow, rfl⟩ := decodeBytes_cons_eq_instr_iff.1 h
    rw [encode, opcodeByte_of_decodeOpcode hrow, List.cons_append]

/-- Settles O3: the opcode latch finds the row, and the operand latches begin with the operand bytes. -/
theorem latchedBytesDecodeToEncodedInstruction : Obligations.LatchedBytesDecodeToEncodedInstruction := by
  intro i ir opA opB rest tail h
  obtain ⟨rfl, hops⟩ := List.cons.inj h
  rw [decode, decodeOpcode_opcodeByte]
  exact congrArg Decoded.instr (assemble_of_operandBytes_append hops)

/-- Settles O6: each word is the encoding of its instruction, followed by zeros up to three bytes. -/
theorem writtenOutWordsDecode : Obligations.WrittenOutWordsDecode := by
  have hword {i : Instr} {ir x y : Byte} (pad : List Byte) (h : encode i ++ pad = [ir, x, y]) :
      decode ir x y = .instr i := latchedBytesDecodeToEncodedInstruction i ir x y pad [] h
  exact ⟨hword [] rfl, hword [0] rfl, hword [] rfl, hword [0] rfl, hword [0] rfl, hword [0, 0] rfl⟩

/-! ### The operand check -/

section
variable {o a b : Byte}

theorem frameR_of_first_reserved (row : Opcode) (body : Reg → State → Res Bool) (s : State)
    (h : [a].find? (fun x => !regByteOk x) = some o) :
    frameR row a body s = .next (s.halt .reservedOperand o.toNat) := by
  obtain ⟨ha, rfl⟩ : regByteOk a = false ∧ a = o := by simpa using h
  exact frameR_of_reserved row body s ha

theorem frameRR_of_first_reserved (row : Opcode) (body : Reg → Reg → State → Res Bool) (s : State)
    (h : [a, b].find? (fun x => !regByteOk x) = some o) :
    frameRR row a b body s = .next (s.halt .reservedOperand o.toNat) := by
  obtain ⟨ha, rfl⟩ | ⟨ha, hb, rfl⟩ :
      (regByteOk a = false ∧ a = o) ∨ (regByteOk a = true ∧ regByteOk b = false ∧ b = o) := by
    simpa [List.find?_cons_eq_some] using h
  · exact frameRR_of_reserved_first row b body s ha
  · exact frameRR_of_reserved_second row body s ha hb

end

/-- Settles O10: every meaning but RET and HLT is a frame that checks the register operands in their order. -/
theorem reservedOperandHalts : Obligations.ReservedOperandHalts := by
  intro i s o h
  cases i with
  | inc | dec | not | jmp | jeq | jne | jgt | jlt => exact frameR_of_first_reserved _ _ s h
  | ldi | prn | pra | call | push | pop =>
    simp only [exec, execLdi, execPrn, execPra, execCall, execPush, execPop]
    exact frameR_of_first_reserved _ _ s h
  | add | sub | mul | div | mod | and | or | xor => exact frameRR_of_first_reserved _ _ s h
  | ld | st | cmp =>
    simp only [exec, execLd, execSt, execCmp]
    exact frameRR_of_first_reserved _ _ s h
  | ret | hlt => cases h

/-! ### LDI -/

theorem exec_ldi (a imm : Byte) (s : State) : exec (.ldi a imm) s = execLdi a imm s := rfl

/-- Settles O25: the register reads back the immediate that was written to it. -/
theorem ldiLoadsImmediate : Obligations.LdiLoadsImmediate := by
  intro s a imm ha
  have hldi := (exec_ldi a imm s).trans (execLdi_eq a imm s ha)
  exact ⟨_, hldi, by simp, by simp⟩

end Sys2Proof.Machine
end

section
/-! SUPPORT. The step cycle: what one step of a Running and of a Halted machine answers, the runs made of such steps, and
the branches on a flag (spec/40_step_cycle.md R80 to R91; 44_branch.md R141 to R145; 70_reset_and_hazards.md R197). -/

namespace Sys2Proof.Machine

/-! ### One step -/

/-- Settles O7: the three hypotheses say that the step fetches the instruction. -/
theorem stepRunsDecodedInstruction : Obligations.StepRunsDecodedInstruction :=
  fun _ _ hrun hpc hdec => step_of_fetches ⟨hrun, hpc, hdec⟩

theorem decode_of_unknown {ir : Byte} (x y : Byte) (h : decodeOpcode ir = none) :
    decode ir x y = .unknownOpcode ir := by
  rw [decode, h]

/-- Settles O9: the fetch succeeds and leaves the state as it is, and the decoder raises on what it latched. -/
theorem unknownOpcodeHalts : Obligations.UnknownOpcodeHalts := by
  intro s hrun hpc hop
  have hfetch : fetchInstr s = raise .unknownOpcode (s.cell s.pc.toNat).toNat s := by
    simp only [fetchInstr, fetch_of_lt s hpc, Res.bind_ok, decodeLatches, decode_of_unknown _ _ hop]
  simp only [step, hrun, hfetch, raise, State.halt]

/-- R90 (decision D14, log 6). -/
theorem step_of_halted {s : State} (h : s.run = .halted) : step s = .next s := by
  simp only [step, h, stepHalted]

/-- R85: every meaning ends in `finish`, from the `pc` it began at. -/
theorem exec_eq_finish (i : Instr) (s : State) : ∃ row r, exec i s = finish row s.pc r := by
  cases i with
  | hlt => exact ⟨.hlt, .ok false (s.halt .hlt s.pc.toNat), rfl⟩
  | _ => exact ⟨_, _, rfl⟩

theorem exec_total (i : Instr) (s : State) : ∃ t, exec i s = .next t := by
  obtain ⟨row, r, h⟩ := exec_eq_finish i s
  rw [h]
  exact finish_total row s.pc r

theorem step_total (s : State) : ∃ t, step s = .next t := by
  cases hrun : s.run with
  | halted => exact ⟨s, step_of_halted hrun⟩
  | running =>
    simp only [step, hrun]
    cases fetchInstr s with
    | raised t => exact ⟨t, rfl⟩
    | ok i t => exact exec_total i t

/-- Settles O12: `exec` always ends in `finish`, which answers a next state; so does a step in Halted and one that raises
before `exec`. -/
theorem everyStepAnswersNext : Obligations.EveryStepAnswersNext := ⟨step_total, exec_total⟩

/-! ### Faults -/

/-- R91, R180: of an instruction's effects on a Running machine, only a fault ends in Halted with a cause that is one. -/
theorem Effect.eq_halt_of_isFault {i : Instr} {s t : State} (he : Effect i s t) (hs : s.run = .running)
    (ht : t.run = .halted) (hc : isFault t.cause = true) : ∃ c n, t = s.halt c n := by
  cases he with
  | fault _ _ c n => exact ⟨c, n, rfl⟩
  | hlt => cases hc
  | writeReg | store | emit | compare | jump | fallThrough | call | ret | push | pop => cases hs.symm.trans ht

/-- Settles O16: a fault, whether of the fetch, the decoder or the instruction, is an entry into Halted from the state
before the step. -/
theorem faultChangesNothingElse : Obligations.FaultChangesNothingElse := by
  intro s t hs h ht hc
  have hhalt : ∃ c n, t = s.halt c n := by
    obtain ⟨hh, -⟩ | ⟨-, c, n, -, rfl⟩ | ⟨i, -, hx⟩ := step_cases h
    · cases hs.symm.trans hh
    · exact ⟨c, n, rfl⟩
    · exact (exec_effect hx).eq_halt_of_isFault hs ht hc
  obtain ⟨c, n, rfl⟩ := hhalt
  rfl

/-! ### Runs -/

theorem run_succ_of_next {M : Host.Core} {s t : M.State} (k : Nat) (h : M.step s = .next t) :
    M.run (k + 1) s = M.run k t := by
  simp only [Host.Core.run, h]

/-- Settles O11, by induction on the number of steps. -/
theorem haltedIsTerminal : Obligations.HaltedIsTerminal := by
  intro s k h
  induction k with
  | zero => rfl
  | succ k ih => exact (run_succ_of_next k (step_of_halted h)).trans ih

/-- R197: the driver makes no request of a Halted machine. -/
theorem drive_of_halted {s : State} (k : Nat) (h : s.run = .halted) : drive k s = s := by
  cases k with
  | zero => rfl
  | succ k => simp only [drive, h]

theorem drive_succ_of_next {s t : State} (k : Nat) (hrun : s.run = .running) (h : step s = .next t) :
    drive (k + 1) s = drive k t := by
  simp only [drive, hrun, h]

/-- Settles O59, by induction on the requests made before the halt: a Running machine moves on to its next state in both
drives, and a Halted one stays in both. -/
theorem driverStopsAtHalted : Obligations.DriverStopsAtHalted := by
  intro s k j h
  induction k generalizing s with
  | zero => exact drive_of_halted _ h
  | succ k ih =>
    cases hrun : s.run with
    | halted => rw [drive_of_halted _ hrun, drive_of_halted _ hrun]
    | running =>
      obtain ⟨t, ht⟩ := step_total s
      rw [drive_succ_of_next k hrun ht] at h ⊢
      rw [Nat.add_right_comm, drive_succ_of_next (k + j) hrun ht]
      exact ih t h

/-! ### The branches on a flag -/

/-- Settles O38: on a legal operand each of the three is one write of `pc`, chosen by its condition, which reads the one
flag. -/
theorem flagBranchesFollowTheirFlag : Obligations.FlagBranchesFollowTheirFlag := fun s a ha =>
  ⟨⟨_, execJeq_eq a s ha, rfl⟩, ⟨_, execJgt_eq a s ha, rfl⟩, ⟨_, execJlt_eq a s ha, rfl⟩⟩

end Sys2Proof.Machine
end

section
/-! SUPPORT. The loads and stores of a register's address (spec/41_data_move.md R101, R102). -/

namespace Sys2Proof.Machine

theorem exec_ld (a b : Byte) (s : State) : exec (.ld a b) s = execLd a b s := rfl

/-- Settles O26: the address is read from the state before the write, so the register reads back the loaded byte when
both operands name it too. -/
theorem ldLoadsFromMemory : Obligations.LdLoadsFromMemory := by
  intro s a b ha hb
  have hld := (exec_ld a b s).trans (execLd_eq a b s ha hb)
  refine ⟨_, hld, ?_, State.setPc_pc _ _⟩
  rw [State.reg_setPc, State.reg_setReg_same]

/-- Settles O27: the address is a byte, so its cell exists and reads back what was written to it. -/
theorem stStoresToMemory : Obligations.StStoresToMemory := by
  intro s a b ha hb
  have hst := (exec_st a b s).trans (execSt_eq a b s ha hb)
  refine ⟨_, hst, ?_, State.setPc_pc _ _⟩
  rw [State.cell_setPc, State.cell_setMem, Memory.read_write_same]

end Sys2Proof.Machine
end

section
/-! SUPPORT. How an event reads as text (spec/42_io.md R112). -/

namespace Sys2Proof.Machine

/-! ### The digits of a number event, one case per branch of `decimalChars` -/

/-- R112 (decision D17, log 14): a byte has one, two or three decimal digits, and the first of several is not zero. -/
theorem renderEvent_num_cases (v : Byte) :
    (∃ u ≤ 9, v.toNat = u ∧ renderEvent (.num v) = [u].map digitChar) ∨
    (∃ t ≤ 9, ∃ u ≤ 9, 1 ≤ t ∧ v.toNat = 10 * t + u ∧ renderEvent (.num v) = [t, u].map digitChar) ∨
    (∃ h ≤ 9, ∃ t ≤ 9, ∃ u ≤ 9, 1 ≤ h ∧ v.toNat = 100 * h + 10 * t + u ∧
      renderEvent (.num v) = [h, t, u].map digitChar) := by
  have hv : v.toNat < 256 := v.isLt
  by_cases h100 : 100 ≤ v.toNat
  · have hchars : decimalChars v =
        [v.toNat / 100, v.toNat / 10 % 10, v.toNat % 10].map digitChar := if_pos h100
    exact .inr (.inr ⟨_, by omega, _, by omega, _, by omega, by omega, by omega, hchars⟩)
  · by_cases h10 : 10 ≤ v.toNat
    · have hchars : decimalChars v = [v.toNat / 10, v.toNat % 10].map digitChar :=
        (if_neg h100).trans (if_pos h10)
      exact .inr (.inl ⟨_, by omega, _, by omega, by omega, by omega, hchars⟩)
    · have hchars : decimalChars v = [v.toNat].map digitChar := (if_neg h100).trans (if_neg h10)
      exact .inl ⟨_, by omega, rfl, hchars⟩

/-! ### The characters of ASCII -/

/-- R111, R112: below 128 the glyph is the ASCII character, whatever the host shows above (log 14). -/
theorem renderEvent_chr_of_ascii (v : Byte) (h : v.toNat < 128) :
    renderEvent (.chr v) = [Char.ofNat v.toNat] :=
  congrArg (fun c => [c]) (if_pos h : chrGlyph v = Char.ofNat v.toNat)

/-! ### The obligation -/

/-- Settles O30: by the number of digits, the digits read back in base 10; the characters are those of ASCII. -/
theorem eventsRenderAsText : Obligations.EventsRenderAsText := by
  refine ⟨fun v => ?_, renderEvent_chr_of_ascii⟩
  obtain ⟨u, hu, hv, hr⟩ | ⟨t, ht, u, hu, hpos, hv, hr⟩ | ⟨h, hh, t, ht, u, hu, hpos, hv, hr⟩ :=
    renderEvent_num_cases v
  · exact ⟨[u], hr, by simpa using hu, by simp, by simp, by simp, by simp [hv]⟩
  · have hlead : t ≠ 0 := by omega
    exact ⟨[t, u], hr, by simp [ht, hu], by simp, by simp, by simp [hlead], by simp [hv]⟩
  · have hlead : h ≠ 0 := by omega
    have hval : 10 * (10 * h + t) + u = v.toNat := by omega
    exact ⟨[h, t, u], hr, by simp [ht, hu, hh], by simp, by simp, by simp [hlead], by simpa using hval⟩

end Sys2Proof.Machine
end

section
/-! SUPPORT. The ALU: the value of each operation, and the instructions that write it (spec/43_alu.md R120 to R131,
R133). -/

namespace Sys2Proof.Machine

/-! ### The value of each operation, as a number (decision D18, log 12, for the negative difference) -/

theorem toNat_aluAdd (x y : Byte) : (aluAdd x y).toNat = (x.toNat + y.toNat) % 256 := by
  rw [aluAdd, ← Int.natCast_add, toNat_mask8_natCast]

theorem toNat_aluSub (x y : Byte) : (aluSub x y).toNat = (256 + x.toNat - y.toNat) % 256 := by
  have hy : y.toNat < 256 := y.isLt
  rw [aluSub, toNat_mask8]
  omega

theorem toNat_aluMul (x y : Byte) : (aluMul x y).toNat = (x.toNat * y.toNat) % 256 := by
  rw [aluMul, ← Int.natCast_mul, toNat_mask8_natCast]

theorem toNat_aluInc (x : Byte) : (aluInc x).toNat = (x.toNat + 1) % 256 :=
  toNat_mask8_natCast (x.toNat + 1)

theorem toNat_aluDec (x : Byte) : (aluDec x).toNat = (x.toNat + 255) % 256 := by
  rw [aluDec, toNat_mask8]
  omega

theorem toNat_aluNot (x : Byte) : (aluNot x).toNat = 255 - x.toNat := by
  have hx : x.toNat < 256 := x.isLt
  rw [aluNot, toNat_mask8]
  omega

/-- R131: the difference from 255 is the byte with every bit inverted. -/
theorem aluNot_eq_complement (x : Byte) : aluNot x = ~~~x := by
  apply BitVec.eq_of_toNat_eq
  simp [toNat_aluNot]

/-- A quotient or a remainder is at most the dividend, so it fits a byte (R124, R125). -/
theorem toNat_ofNat_of_le_byte {n : Nat} {x : Byte} (h : n ≤ x.toNat) : (BitVec.ofNat 8 n).toNat = n :=
  Nat.mod_eq_of_lt (h.trans_lt x.isLt)

/-! ### The instructions -/

/-- After a register write and a move of `pc` the register holds the value written. -/
theorem State.reg_setPc_setReg_same (s : State) (r : Reg) (v : Byte) (p : PcWord) :
    ((s.setReg r v).setPc p).reg r = v :=
  State.reg_setReg_same s r v

/-- Settles O31: the result is masked to a byte, which is its remainder modulo 256, before the first register is
written. -/
theorem addSubMulWrapModulo256 : Obligations.AddSubMulWrapModulo256 := by
  intro s a b ha hb
  exact
    ⟨⟨_, execAdd_eq a b s ha hb, rfl, by rw [State.reg_setPc_setReg_same, toNat_aluAdd]⟩,
      ⟨_, execSub_eq a b s ha hb, rfl, by rw [State.reg_setPc_setReg_same, toNat_aluSub]⟩,
      ⟨_, execMul_eq a b s ha hb, rfl, by rw [State.reg_setPc_setReg_same, toNat_aluMul]⟩⟩

/-- Settles O32: a nonzero divisor takes the second branch of the two meanings, whose result fits a byte. -/
theorem divAndModByNonzero : Obligations.DivAndModByNonzero := by
  intro s a b ha hb hne
  have hnz : (s.reg (regIndex b)).toNat ≠ 0 := fun h0 => hne (BitVec.eq_of_toNat_eq h0)
  have hdiv := (execDiv_eq a b s ha hb).trans (if_neg hnz)
  have hmod := (execMod_eq a b s ha hb).trans (if_neg hnz)
  exact
    ⟨⟨_, hdiv, rfl, by rw [State.reg_setPc_setReg_same, toNat_ofNat_of_le_byte (Nat.div_le_self _ _)]⟩,
      ⟨_, hmod, rfl, by rw [State.reg_setPc_setReg_same, toNat_ofNat_of_le_byte (Nat.mod_le _ _)]⟩⟩

/-- Settles O33: a zero divisor takes the first branch of the two meanings, which halts the machine and writes no
register and no `pc`. -/
theorem divAndModByZeroFault : Obligations.DivAndModByZeroFault := by
  intro s a b ha hb hzero
  have hz : (s.reg (regIndex b)).toNat = 0 := congrArg BitVec.toNat hzero
  exact ⟨(execDiv_eq a b s ha hb).trans (if_pos hz), (execMod_eq a b s ha hb).trans (if_pos hz)⟩

/-- Settles O34: the three operations are those of bit vectors, which act on each bit by itself. -/
theorem andOrXorWorkBitwise : Obligations.AndOrXorWorkBitwise := by
  intro s a b ha hb
  exact
    ⟨⟨_, execAnd_eq a b s ha hb, rfl, fun _ _ => by rw [State.reg_setPc_setReg_same, aluAnd, BitVec.getLsbD_and]⟩,
      ⟨_, execOr_eq a b s ha hb, rfl, fun _ _ => by rw [State.reg_setPc_setReg_same, aluOr, BitVec.getLsbD_or]⟩,
      ⟨_, execXor_eq a b s ha hb, rfl, fun _ _ => by rw [State.reg_setPc_setReg_same, aluXor, BitVec.getLsbD_xor]⟩⟩

/-- Settles O35: the register holds the masked result; for NOT that is also the complement of the register. -/
theorem incDecNotOfOneRegister : Obligations.IncDecNotOfOneRegister := by
  intro s a ha
  exact
    ⟨⟨_, execInc_eq a s ha, rfl, by rw [State.reg_setPc_setReg_same, toNat_aluInc]⟩,
      ⟨_, execDec_eq a s ha, rfl, by rw [State.reg_setPc_setReg_same, toNat_aluDec]⟩,
      ⟨_, execNot_eq a s ha, rfl, by rw [State.reg_setPc_setReg_same, toNat_aluNot],
        by rw [State.reg_setPc_setReg_same, aluNot_eq_complement]⟩⟩

end Sys2Proof.Machine
end

section
/-! SUPPORT. JNE, the branch on a clear flag (spec/44_branch.md R142, R145). -/

namespace Sys2Proof.Machine

/-- R142 (decision D10, log 9): JNE's condition is the negation of the Equal flag, so it chooses between the same two
values the other way round. -/
theorem ite_condNe {α : Type} (f : Flags) (taken fallThrough : α) :
    (if condNe f = true then taken else fallThrough) = if f.e = true then fallThrough else taken := by
  cases he : f.e with
  | false => simp [condNe, he]
  | true => simp [condNe, he]

/-- Settles O39: on a legal operand JNE is one write of `pc`, chosen by the Equal flag with the two targets exchanged. -/
theorem jneFollowsClearEqual : Obligations.JneFollowsClearEqual := by
  intro s a ha
  exact ⟨_, execJne_eq a s ha, ite_condNe s.fl (zext9 (s.reg (regIndex a))) (s.pc + 2)⟩

end Sys2Proof.Machine
end

section
/-! SUPPORT. The stack and the subroutines: push and pop, CALL, RET, PUSH and POP (spec/45_subroutine_stack.md R150 to
R155). -/

namespace Sys2Proof.Machine

/-! ### The stack pointer and the return address, as byte arithmetic -/

/-- R22, R150: a push moves the stack pointer down by one, from 0 to 255. -/
theorem pushAddr_eq_sub_one (s : State) : pushAddr s = s.reg 7 - 1 := by
  apply BitVec.eq_of_toNat_eq
  rw [toNat_pushAddr, BitVec.toNat_sub, Nat.add_comm]
  rfl

/-- R22, R151: a pop moves the stack pointer up by one, from 255 to 0. -/
theorem mask8_toNat_add_one (v : Byte) : mask8 ((v.toNat : Int) + 1) = v + 1 :=
  BitVec.eq_of_toNat_eq (toNat_mask8_natCast (v.toNat + 1))

/-- R152 (log 3): where a step can execute, the return address fits the byte that CALL pushes. -/
theorem toNat_returnAddress {p : PcWord} (h : p.toNat + 2 < Config.memSize) : (returnAddress p).toNat = p.toNat + 2 :=
  Nat.mod_eq_of_lt h

/-! ### push and pop -/

/-- Settles O23: the address is a byte, so the write is the branch that completes. -/
theorem pushDecrementsThenStores : Obligations.PushDecrementsThenStores := fun s v =>
  ⟨pushAddr s, toNat_pushAddr s, (push_eq v s).trans (if_pos (byte_lt_memSize _)).symm⟩

/-- Settles O24: the address is a byte, so the read is the branch that completes. -/
theorem popReadsThenIncrements : Obligations.PopReadsThenIncrements := fun s =>
  ⟨mask8 (((s.reg 7).toNat : Int) + 1), toNat_mask8_natCast ((s.reg 7).toNat + 1),
    (pop_eq s).trans (if_pos (byte_lt_memSize _)).symm⟩

/-! ### CALL, RET, PUSH and POP -/

theorem exec_call (a : Byte) (s : State) : exec (.call a) s = execCall a s := rfl

theorem exec_ret (s : State) : exec .ret s = execRet s := rfl

theorem exec_push (a : Byte) (s : State) : exec (.push a) s = execPush a s := rfl

theorem exec_pop (a : Byte) (s : State) : exec (.pop a) s = execPop a s := rfl

section
variable (s : State) (n v : Byte) (p : PcWord)

/-- After a push to the cell `n` and a move of `pc`, the stack pointer names that cell. -/
theorem State.reg_seven_of_push : (((s.setReg 7 n).setMem (s.mem.write n.toNat v)).setPc p).reg 7 = n :=
  State.reg_setReg_same s 7 n

/-- After a push to the cell `n` and a move of `pc`, that cell reads back what was pushed. -/
theorem State.cell_of_push : (((s.setReg 7 n).setMem (s.mem.write n.toNat v)).setPc p).cell n.toNat = v :=
  Memory.read_write_same s.mem n.toNat v

end

/-- Settles O40: CALL is a push of the return address, and then `pc` is the operand, read with the stack pointer
already moved. -/
theorem callPushesReturnAddress : Obligations.CallPushesReturnAddress := by
  intro s a ha hpc
  have hcall := (exec_call a s).trans (execCall_eq a s ha)
  rw [pushAddr_eq_sub_one] at hcall
  refine ⟨_, hcall, State.reg_seven_of_push .., ?_, ?_⟩
  · rw [State.cell_of_push, toNat_returnAddress hpc]
  · rw [State.setPc_pc, toNat_zext9, State.reg_setReg, apply_ite BitVec.toNat]

/-- Settles O41: RET is a pop, whose byte becomes `pc`. -/
theorem retPopsProgramCounter : Obligations.RetPopsProgramCounter := by
  intro s
  have hret := (exec_ret s).trans (execRet_eq s)
  rw [mask8_toNat_add_one] at hret
  exact ⟨_, hret, toNat_zext9 _, State.reg_setPc_setReg_same ..⟩

/-- Settles O42: PUSH is a push of the operand, read before the stack pointer moves. -/
theorem pushStoresRegister : Obligations.PushStoresRegister := by
  intro s a ha
  have hpush := (exec_push a s).trans (execPush_eq a s ha)
  rw [pushAddr_eq_sub_one] at hpush
  exact ⟨_, hpush, State.reg_seven_of_push .., State.cell_of_push .., State.setPc_pc ..⟩

/-- Settles O43: POP is a pop, whose byte is written to the operand last; so the moved stack pointer stays where the
operand is another register. -/
theorem popLoadsRegister : Obligations.PopLoadsRegister := by
  intro s a ha
  have hpop := (exec_pop a s).trans (execPop_eq a s ha)
  rw [mask8_toNat_add_one] at hpop
  refine ⟨_, hpop, State.reg_setPc_setReg_same .., fun hne => ?_, State.setPc_pc ..⟩
  rw [State.reg_setPc, State.reg_setReg_other _ _ hne.symm, State.reg_setReg_same]

/-- Settles O45: RET reads the cell CALL left the return address in, and moves the stack pointer up by the one that CALL
moved it down. -/
theorem retReturnsAfterCall : Obligations.RetReturnsAfterCall := by
  intro s t u a ha hpc hcall husp hucell
  obtain ⟨t', hcall', htsp, htcell, -⟩ := callPushesReturnAddress s a ha hpc
  obtain rfl : t' = t := next_unique hcall' hcall
  obtain ⟨w, hret, hwpc, hwsp⟩ := retPopsProgramCounter u
  refine ⟨w, hret, ?_, ?_⟩
  · rw [hwpc, husp, hucell, htsp, htcell]
  · rw [hwsp, husp, htsp, BitVec.sub_add_cancel]

end Sys2Proof.Machine
end

section
/-! SUPPORT. HLT, the one instruction that halts without a fault (spec/46_halt.md R160; R171, R177). -/

namespace Sys2Proof.Machine

theorem exec_hlt (s : State) : exec .hlt s = execHlt s := rfl

/-- Settles O46: HLT records the old `pc` before the advance, and the advance keeps the run state, the cause and the
information. -/
theorem hltHalts : Obligations.HltHalts := by
  intro s
  have hhlt := (exec_hlt s).trans (execHlt_eq s)
  refine ⟨_, hhlt, ?_, ?_, ?_⟩
  · rw [State.setPc_run, State.halt_run]
  · rw [State.setPc_cause, State.halt_cause]
  · rw [State.setPc_info, State.halt_info]

end Sys2Proof.Machine
end

section
/-! SUPPORT. The ways into Halted (spec/60_exceptions.md R171, R177). -/

namespace Sys2Proof.Machine

/-- R29, R177: of an instruction's effects on a Running machine, only HLT and a fault end in Halted. -/
theorem Effect.cause_of_halts {i : Instr} {s t : State} (he : Effect i s t) (hs : s.run = .running)
    (ht : t.run = .halted) : (i = .hlt ∧ t.cause = .hlt) ∨ isFault t.cause = true := by
  cases he with
  | hlt => exact .inl ⟨rfl, rfl⟩
  | fault _ _ _ _ hc => obtain rfl | rfl := hc <;> exact .inr rfl
  | writeReg | store | emit | compare | jump | fallThrough | call | ret | push | pop => cases hs.symm.trans ht

theorem isFault_iff_mem (c : Cause) :
    isFault c = true ↔ c ∈ [Cause.unknownOpcode, .arithmeticFault, .addressFault, .reservedOperand] := by
  cases c <;> decide

/-- R177: a Running machine that a step halts has fetched HLT, or has taken a fault in the fetch, the decoder or the
instruction. -/
theorem step_halts_by_hlt_or_fault {s t : State} (hs : s.run = .running) (h : step s = .next t)
    (ht : t.run = .halted) : (fetches s .hlt ∧ t.cause = .hlt) ∨ isFault t.cause = true := by
  obtain ⟨hh, -⟩ | ⟨-, c, n, hc, rfl⟩ | ⟨i, hf, hx⟩ := step_cases h
  · cases hs.symm.trans hh
  · obtain rfl | rfl := hc <;> exact .inr rfl
  · obtain ⟨rfl, hcause⟩ | hfault := (exec_effect hx).cause_of_halts hs ht
    · exact .inl ⟨hf, hcause⟩
    · exact .inr hfault

theorem step_jmp_to_itself {s : State} {a : Byte} (hf : fetches s (.jmp a)) (ha : regByteOk a = true)
    (htarget : zext9 (s.reg (regIndex a)) = s.pc) : step s = .next s := by
  rw [step_of_fetches hf, exec_jmp, execJmp_eq a s ha, htarget]
  rfl

/-- Settles O17: HLT's own effect, the inversion of a halting step, and the jump whose target is the `pc` it would
replace. -/
theorem onlyHltAndFaultsHalt : Obligations.OnlyHltAndFaultsHalt := by
  refine ⟨rfl, fun s hf => ?_, fun s t hs h ht => ?_, fun s a => step_jmp_to_itself⟩
  · obtain ⟨t, hhlt, hrun, hcause, -⟩ := hltHalts s
    exact ⟨t, (step_of_fetches hf).trans hhlt, hrun, hcause⟩
  · exact (step_halts_by_hlt_or_fault hs h ht).imp_right (isFault_iff_mem t.cause).mp

end Sys2Proof.Machine
end

section
/-! SUPPORT. The lines of a program text (spec/70_reset_and_hazards.md R194, R195; log 16). -/

namespace Sys2Proof.Machine

theorem bitOfChar_ite (b : Bool) : bitOfChar (if b then '1' else '0') = some b.toNat := by
  cases b <;> rfl

theorem bitOfChar_eq_none_iff {c : Char} : bitOfChar c = none ↔ c ≠ '0' ∧ c ≠ '1' := by
  by_cases h0 : c = '0' <;> by_cases h1 : c = '1' <;> simp [bitOfChar, h0, h1]

theorem parseBits_cons_of_some {c : Char} {d : Nat} (k acc : Nat) (cs : List Char) (h : bitOfChar c = some d) :
    parseBits (k + 1) acc (c :: cs) = parseBits k (2 * acc + d) cs := by
  simp only [parseBits, h]

theorem parseBits_cons_of_none {c : Char} (k acc : Nat) (cs : List Char) (h : bitOfChar c = none) :
    parseBits (k + 1) acc (c :: cs) = none := by
  simp only [parseBits, h]

/-- R194: the digits of the bits below `k` of `x`, the highest first, put `x mod 2^k` below what was read before. -/
theorem parseBits_testBit (k acc x : Nat) (tail : List Char) :
    parseBits k acc ((List.range k).map (fun j => if x.testBit (k - 1 - j) then '1' else '0') ++ tail) =
      some (2 ^ k * acc + x % 2 ^ k) := by
  induction k generalizing acc with
  | zero => simp [parseBits, Nat.mod_one]
  | succ k ih =>
    have hindex (j : Nat) : k - 1 - j = k - (j + 1) := by omega
    have hvalue : 2 ^ k * (2 * acc + (x.testBit k).toNat) + x % 2 ^ k = 2 ^ (k + 1) * acc + x % 2 ^ (k + 1) := by
      rw [Nat.mod_pow_succ, Nat.toNat_testBit]
      ring
    rw [List.range_succ_eq_map, List.map_cons, List.map_map, List.cons_append,
      parseBits_cons_of_some _ _ _ (bitOfChar_ite _), ← hvalue, ← ih]
    simp only [Function.comp_def, Nat.succ_eq_add_one, Nat.add_sub_cancel, Nat.sub_zero, hindex]

/-- R195: too few characters, or one of the first `k` that is no binary digit, and no number is read. -/
theorem parseBits_eq_none {k acc : Nat} {line : List Char}
    (h : line.length < k ∨ ∃ c ∈ line.take k, c ≠ '0' ∧ c ≠ '1') : parseBits k acc line = none := by
  induction k generalizing acc line with
  | zero => simp at h
  | succ k ih =>
    cases line with
    | nil => rfl
    | cons c cs =>
      cases hc : bitOfChar c with
      | none => exact parseBits_cons_of_none k acc cs hc
      | some d =>
        have hdigit : ¬(c ≠ '0' ∧ c ≠ '1') := fun hbad => by
          rw [bitOfChar_eq_none_iff.mpr hbad] at hc
          cases hc
        rw [parseBits_cons_of_some k acc cs hc]
        apply ih
        simpa [hdigit] using h

theorem parseProgram_of_refused_line {n : Nat} {line : List Char} (lines : List (List Char))
    (hsig : lineSignificant line = true) (hline : parseLine line = none) :
    parseProgram n (line :: lines) = .error (.invalidProgramFormat n) := by
  simp only [parseProgram, hsig, hline, if_true]

/-- Settles O58: eight digits read back as `v mod 2^8`, which is `v`, and a line whose first eight characters are no
binary number is refused where it stands. -/
theorem programLinesParse : Obligations.ProgramLinesParse := by
  refine ⟨fun v tail => ?_, fun n line lines hsig hbad => ?_⟩
  · have hbits := parseBits_testBit 8 0 v.toNat tail
    rw [Nat.mul_zero, Nat.zero_add, Nat.mod_eq_of_lt v.isLt] at hbits
    calc
      _ = (some v.toNat).map (BitVec.ofNat 8) := congrArg (Option.map _) hbits
      _ = some v := by rw [Option.map_some, BitVec.ofNat_toNat, BitVec.setWidth_eq]
  · have hline : parseLine line = none := by
      rw [parseLine, parseBits_eq_none hbad, Option.map_none]
    exact parseProgram_of_refused_line lines hsig hline

end Sys2Proof.Machine
end
